-- ==== Sys2Proof/Word.lean ====
section
/-! DEFINITION. The widths of the machine (00_scope.md rules R7, R9): a register, the pc and an instruction word are
32 bits (XLEN), a data-memory cell is a byte, a register index is 5 bits. -/

namespace Sys2Proof

/-- A 32-bit pattern with no inherent sign (R9): register contents, the pc, addresses, instruction words. -/
abbrev Word := BitVec 32

/-- One byte of data memory (R30). -/
abbrev Byte := BitVec 8

/-- A register index, "an index in [0,31]" (5 bits; R21, R91). -/
abbrev Reg := BitVec 5

end Sys2Proof
end

