-- ==== Sys2Proof/Syntax.lean ====
section
/-! DEFINITION. The decoded instruction record (30_encoding.md Part 1): operand types (R91, R92), the closed
enumerations (R93), the instructions, one constructor per row of spec/opcode_table.json (R90), and what an
instruction-memory slot contains (R28). -/

namespace Sys2Proof

/-- R31: a label name, a non-empty string; the spec fixes no alphabet (log 15). -/
abbrev LabelName := { name : String // name ≠ "" }

/-- R92: a label name, resolved at execution time to an absolute address, or a signed byte offset added unscaled to
the pc. The two forms stay distinct. -/
inductive JumpTarget where
  | label (name : LabelName)
  | offset (off : Word)
  deriving DecidableEq, Repr

/-- R91: the (base register, offset) pair of loads and stores. -/
structure Address where
  base : Reg
  offset : Word
  deriving DecidableEq, Repr

/-- R93. -/
inductive BranchCondition where
  | eq | ne | lt | ge | ltu | geu
  deriving DecidableEq, Repr

/-- R93. -/
inductive LoadWidth where
  | byte | half | word | byteUnsigned | halfUnsigned
  deriving DecidableEq, Repr

/-- R93. -/
inductive StoreWidth where
  | byte | half | word
  deriving DecidableEq, Repr

/-- R93: there is no immediate Sub. -/
inductive IntegerImmediateOp where
  | add | slt | sltu | xor | or | and | sll | srl | sra
  deriving DecidableEq, Repr

/-- R93. -/
inductive IntegerRegisterOp where
  | add | sub | sll | slt | sltu | xor | srl | sra | or | and
  deriving DecidableEq, Repr

/-- The 37 instructions (R2, R93), in the order of spec/opcode_table.json. An operand holds the 32-bit value of the
record (R91, R94): every value has a meaning, also those no instruction word can express (log 16). -/
inductive Instr where
  | lui (rd : Reg) (imm : Word)
  | auipc (rd : Reg) (imm : Word)
  | jal (rd : Reg) (target : JumpTarget)
  | jalr (rd base : Reg) (offset : Word)
  | beq (rs1 rs2 : Reg) (target : JumpTarget)
  | bne (rs1 rs2 : Reg) (target : JumpTarget)
  | blt (rs1 rs2 : Reg) (target : JumpTarget)
  | bge (rs1 rs2 : Reg) (target : JumpTarget)
  | bltu (rs1 rs2 : Reg) (target : JumpTarget)
  | bgeu (rs1 rs2 : Reg) (target : JumpTarget)
  | lb (rd : Reg) (address : Address)
  | lh (rd : Reg) (address : Address)
  | lw (rd : Reg) (address : Address)
  | lbu (rd : Reg) (address : Address)
  | lhu (rd : Reg) (address : Address)
  | sb (rs : Reg) (address : Address)
  | sh (rs : Reg) (address : Address)
  | sw (rs : Reg) (address : Address)
  | addi (rd rs1 : Reg) (imm : Word)
  | slti (rd rs1 : Reg) (imm : Word)
  | sltiu (rd rs1 : Reg) (imm : Word)
  | xori (rd rs1 : Reg) (imm : Word)
  | ori (rd rs1 : Reg) (imm : Word)
  | andi (rd rs1 : Reg) (imm : Word)
  | slli (rd rs1 : Reg) (imm : Word)
  | srli (rd rs1 : Reg) (imm : Word)
  | srai (rd rs1 : Reg) (imm : Word)
  | add (rd rs1 rs2 : Reg)
  | sub (rd rs1 rs2 : Reg)
  | sll (rd rs1 rs2 : Reg)
  | slt (rd rs1 rs2 : Reg)
  | sltu (rd rs1 rs2 : Reg)
  | xor (rd rs1 rs2 : Reg)
  | srl (rd rs1 rs2 : Reg)
  | sra (rd rs1 rs2 : Reg)
  | or (rd rs1 rs2 : Reg)
  | and (rd rs1 rs2 : Reg)
  deriving DecidableEq, Repr

/-- The content of an instruction-memory slot (R28): no instruction, or one record. -/
inductive Slot where
  | empty
  | instr (i : Instr)
  deriving DecidableEq, Repr

end Sys2Proof
end

