-- ==== Sys2Proof/Machine/Flags.lean ====
section
/-! DEFINITION. The hardware has no flags, condition codes or predicate registers (10_state.md R35): no instruction
reads or writes one. What stands here are the comparisons that a branch (42_branches.md R150) and a set-less-than
(R180, R200) make for themselves. -/

namespace Sys2Proof.Machine

/-- `a <s b` (R10). -/
def lessSigned (a b : Word) : Bool := decide (a.toInt < b.toInt)

/-- `a <u b` (R10). -/
def lessUnsigned (a b : Word) : Bool := decide (a.toNat < b.toNat)

/-- `if c then 1 else 0`, a 32-bit value (R190). -/
def oneIf (c : Bool) : Word := if c then 1#32 else 0#32

/-- `taken` of R150. -/
def conditionHolds (cond : BranchCondition) (a b : Word) : Bool :=
  match cond with
  | .eq => decide (a = b)
  | .ne => !decide (a = b)
  | .lt => lessSigned a b
  | .ge => !lessSigned a b
  | .ltu => lessUnsigned a b
  | .geu => !lessUnsigned a b

end Sys2Proof.Machine
end

