-- ==== Sys2Proof/WellFormed.lean ====
section
/-! DEFINITION. Which records are ENCODABLE (30_encoding.md rule R94): every operand lies in the range an instruction
word can express and every target has the Offset form. Execution asks for none of this (log 16): it is the domain of
the encoder (R104). -/

namespace Sys2Proof

/-- The value, read as signed, lies in −2^(bits−1) … 2^(bits−1) − 1. -/
def fitsSigned (bits : Nat) (v : Word) : Bool :=
  decide (-(2 ^ (bits - 1) : Int) ≤ v.toInt ∧ v.toInt < (2 ^ (bits - 1) : Int))

/-- LUI and AUIPC: "`imm` < 2²⁰". -/
def upperImmediateFits (imm : Word) : Bool := decide (imm.toNat < 2 ^ 20)

/-- JALR offset, Address offsets and the non-shift ALU immediates: −2048 … 2047. -/
def immediateFits (imm : Word) : Bool := fitsSigned 12 imm

/-- Shift immediates: 0 … 31. -/
def shiftFits (imm : Word) : Bool := decide (imm.toNat < 32)

/-- A target of `bits` bits of range: Offset form, even, in range; a Label-form target has no word (R103). -/
def targetFits (bits : Nat) : JumpTarget → Bool
  | .label _ => false
  | .offset off => decide (off.toNat % 2 = 0) && fitsSigned bits off

/-- Branch offsets: even, −4096 … 4094. -/
def branchTargetFits (target : JumpTarget) : Bool := targetFits 13 target

/-- JAL offsets: even, −1048576 … 1048574. -/
def jalTargetFits (target : JumpTarget) : Bool := targetFits 21 target

/-- R94: the record has a word. -/
def Instr.wellFormed : Instr → Bool
  | .lui _ imm => upperImmediateFits imm
  | .auipc _ imm => upperImmediateFits imm
  | .jal _ target => jalTargetFits target
  | .jalr _ _ offset => immediateFits offset
  | .beq _ _ target => branchTargetFits target
  | .bne _ _ target => branchTargetFits target
  | .blt _ _ target => branchTargetFits target
  | .bge _ _ target => branchTargetFits target
  | .bltu _ _ target => branchTargetFits target
  | .bgeu _ _ target => branchTargetFits target
  | .lb _ address => immediateFits address.offset
  | .lh _ address => immediateFits address.offset
  | .lw _ address => immediateFits address.offset
  | .lbu _ address => immediateFits address.offset
  | .lhu _ address => immediateFits address.offset
  | .sb _ address => immediateFits address.offset
  | .sh _ address => immediateFits address.offset
  | .sw _ address => immediateFits address.offset
  | .addi _ _ imm => immediateFits imm
  | .slti _ _ imm => immediateFits imm
  | .sltiu _ _ imm => immediateFits imm
  | .xori _ _ imm => immediateFits imm
  | .ori _ _ imm => immediateFits imm
  | .andi _ _ imm => immediateFits imm
  | .slli _ _ imm => shiftFits imm
  | .srli _ _ imm => shiftFits imm
  | .srai _ _ imm => shiftFits imm
  | .add _ _ _ => true
  | .sub _ _ _ => true
  | .sll _ _ _ => true
  | .slt _ _ _ => true
  | .sltu _ _ _ => true
  | .xor _ _ _ => true
  | .srl _ _ _ => true
  | .sra _ _ _ => true
  | .or _ _ _ => true
  | .and _ _ _ => true

end Sys2Proof
end

