-- ==== Sys2Proof/Decode.lean ====
section
/-! DEFINITION. The instruction word (30_encoding.md Part 2): fields (R101), immediates (R102), the opcode table (R106),
the total decoder (R103) and the partial encoder (R104). The layout is the standard RV32I base encoding that the spec
adopts by its decision D2 (log 1). -/

namespace Sys2Proof

/-! ### Fields (R101) -/

/-- `w[11:7]`. -/
def fieldRd (w : Word) : Reg := w.extractLsb' 7 5

/-- `w[19:15]`. -/
def fieldRs1 (w : Word) : Reg := w.extractLsb' 15 5

/-- `w[24:20]`. -/
def fieldRs2 (w : Word) : Reg := w.extractLsb' 20 5

/-! ### Immediates (R102) -/

/-- `sext_12(w[31:20])`. -/
def immI (w : Word) : Word := (w.extractLsb' 20 12).signExtend 32

/-- `zext_5(w[24:20])`. -/
def shamt (w : Word) : Word := (w.extractLsb' 20 5).setWidth 32

/-- `sext_12(w[31:25] ‖ w[11:7])`. -/
def immS (w : Word) : Word :=
  (w.extractLsb' 25 7 ++ w.extractLsb' 7 5 : BitVec 12).signExtend 32

/-- `sext_13(w[31] ‖ w[7] ‖ w[30:25] ‖ w[11:8] ‖ 0b0)`. -/
def immB (w : Word) : Word :=
  (w.extractLsb' 31 1 ++ w.extractLsb' 7 1 ++ w.extractLsb' 25 6 ++ w.extractLsb' 8 4 ++ 0#1 : BitVec 13).signExtend 32

/-- `zext_20(w[31:12])`, the unshifted field: the instruction shifts it. -/
def immU (w : Word) : Word := (w.extractLsb' 12 20).setWidth 32

/-- `sext_21(w[31] ‖ w[19:12] ‖ w[20] ‖ w[30:21] ‖ 0b0)`. -/
def immJ (w : Word) : Word :=
  (w.extractLsb' 31 1 ++ w.extractLsb' 12 8 ++ w.extractLsb' 20 1 ++ w.extractLsb' 21 10 ++ 0#1 : BitVec 21).signExtend 32

/-! ### The opcode table (R106) -/

/-- One row: a word belongs to it when `w AND mask = match`; `build` makes its record from the word's fields. -/
structure OpcodeRow where
  mnemonic : String
  mask : Word
  pattern : Word
  build : Word → Instr

/-- R103: `w AND mask = match`. -/
def OpcodeRow.selects (row : OpcodeRow) (w : Word) : Bool := w &&& row.mask == row.pattern

/-- R106, the rows LUI, AUIPC. -/
def opcodeRowsUpper : List OpcodeRow :=
  [ OpcodeRow.mk "LUI" 0x0000007F#32 0x00000037#32 (fun w => .lui (fieldRd w) (immU w)),
    OpcodeRow.mk "AUIPC" 0x0000007F#32 0x00000017#32 (fun w => .auipc (fieldRd w) (immU w)) ]

/-- R106, the rows JAL, JALR. -/
def opcodeRowsJump : List OpcodeRow :=
  [ OpcodeRow.mk "JAL" 0x0000007F#32 0x0000006F#32 (fun w => .jal (fieldRd w) (.offset (immJ w))),
    OpcodeRow.mk "JALR" 0x0000707F#32 0x00000067#32 (fun w => .jalr (fieldRd w) (fieldRs1 w) (immI w)) ]

/-- R106, the rows BEQ, BNE, BLT, BGE, BLTU, BGEU. -/
def opcodeRowsBranch : List OpcodeRow :=
  [ OpcodeRow.mk "BEQ" 0x0000707F#32 0x00000063#32 (fun w => .beq (fieldRs1 w) (fieldRs2 w) (.offset (immB w))),
    OpcodeRow.mk "BNE" 0x0000707F#32 0x00001063#32 (fun w => .bne (fieldRs1 w) (fieldRs2 w) (.offset (immB w))),
    OpcodeRow.mk "BLT" 0x0000707F#32 0x00004063#32 (fun w => .blt (fieldRs1 w) (fieldRs2 w) (.offset (immB w))),
    OpcodeRow.mk "BGE" 0x0000707F#32 0x00005063#32 (fun w => .bge (fieldRs1 w) (fieldRs2 w) (.offset (immB w))),
    OpcodeRow.mk "BLTU" 0x0000707F#32 0x00006063#32 (fun w => .bltu (fieldRs1 w) (fieldRs2 w) (.offset (immB w))),
    OpcodeRow.mk "BGEU" 0x0000707F#32 0x00007063#32 (fun w => .bgeu (fieldRs1 w) (fieldRs2 w) (.offset (immB w))) ]

/-- R106, the rows LB, LH, LW, LBU, LHU. -/
def opcodeRowsLoad : List OpcodeRow :=
  [ OpcodeRow.mk "LB" 0x0000707F#32 0x00000003#32 (fun w => .lb (fieldRd w) (Address.mk (fieldRs1 w) (immI w))),
    OpcodeRow.mk "LH" 0x0000707F#32 0x00001003#32 (fun w => .lh (fieldRd w) (Address.mk (fieldRs1 w) (immI w))),
    OpcodeRow.mk "LW" 0x0000707F#32 0x00002003#32 (fun w => .lw (fieldRd w) (Address.mk (fieldRs1 w) (immI w))),
    OpcodeRow.mk "LBU" 0x0000707F#32 0x00004003#32 (fun w => .lbu (fieldRd w) (Address.mk (fieldRs1 w) (immI w))),
    OpcodeRow.mk "LHU" 0x0000707F#32 0x00005003#32 (fun w => .lhu (fieldRd w) (Address.mk (fieldRs1 w) (immI w))) ]

/-- R106, the rows SB, SH, SW. -/
def opcodeRowsStore : List OpcodeRow :=
  [ OpcodeRow.mk "SB" 0x0000707F#32 0x00000023#32 (fun w => .sb (fieldRs2 w) (Address.mk (fieldRs1 w) (immS w))),
    OpcodeRow.mk "SH" 0x0000707F#32 0x00001023#32 (fun w => .sh (fieldRs2 w) (Address.mk (fieldRs1 w) (immS w))),
    OpcodeRow.mk "SW" 0x0000707F#32 0x00002023#32 (fun w => .sw (fieldRs2 w) (Address.mk (fieldRs1 w) (immS w))) ]

/-- R106, the rows ADDI, SLTI, SLTIU, XORI, ORI, ANDI. -/
def opcodeRowsImmediate : List OpcodeRow :=
  [ OpcodeRow.mk "ADDI" 0x0000707F#32 0x00000013#32 (fun w => .addi (fieldRd w) (fieldRs1 w) (immI w)),
    OpcodeRow.mk "SLTI" 0x0000707F#32 0x00002013#32 (fun w => .slti (fieldRd w) (fieldRs1 w) (immI w)),
    OpcodeRow.mk "SLTIU" 0x0000707F#32 0x00003013#32 (fun w => .sltiu (fieldRd w) (fieldRs1 w) (immI w)),
    OpcodeRow.mk "XORI" 0x0000707F#32 0x00004013#32 (fun w => .xori (fieldRd w) (fieldRs1 w) (immI w)),
    OpcodeRow.mk "ORI" 0x0000707F#32 0x00006013#32 (fun w => .ori (fieldRd w) (fieldRs1 w) (immI w)),
    OpcodeRow.mk "ANDI" 0x0000707F#32 0x00007013#32 (fun w => .andi (fieldRd w) (fieldRs1 w) (immI w)) ]

/-- R106, the rows SLLI, SRLI, SRAI. -/
def opcodeRowsShiftImmediate : List OpcodeRow :=
  [ OpcodeRow.mk "SLLI" 0xFE00707F#32 0x00001013#32 (fun w => .slli (fieldRd w) (fieldRs1 w) (shamt w)),
    OpcodeRow.mk "SRLI" 0xFE00707F#32 0x00005013#32 (fun w => .srli (fieldRd w) (fieldRs1 w) (shamt w)),
    OpcodeRow.mk "SRAI" 0xFE00707F#32 0x40005013#32 (fun w => .srai (fieldRd w) (fieldRs1 w) (shamt w)) ]

/-- R106, the rows ADD, SUB, SLL, SLT, SLTU, XOR, SRL, SRA, OR, AND. -/
def opcodeRowsRegister : List OpcodeRow :=
  [ OpcodeRow.mk "ADD" 0xFE00707F#32 0x00000033#32 (fun w => .add (fieldRd w) (fieldRs1 w) (fieldRs2 w)),
    OpcodeRow.mk "SUB" 0xFE00707F#32 0x40000033#32 (fun w => .sub (fieldRd w) (fieldRs1 w) (fieldRs2 w)),
    OpcodeRow.mk "SLL" 0xFE00707F#32 0x00001033#32 (fun w => .sll (fieldRd w) (fieldRs1 w) (fieldRs2 w)),
    OpcodeRow.mk "SLT" 0xFE00707F#32 0x00002033#32 (fun w => .slt (fieldRd w) (fieldRs1 w) (fieldRs2 w)),
    OpcodeRow.mk "SLTU" 0xFE00707F#32 0x00003033#32 (fun w => .sltu (fieldRd w) (fieldRs1 w) (fieldRs2 w)),
    OpcodeRow.mk "XOR" 0xFE00707F#32 0x00004033#32 (fun w => .xor (fieldRd w) (fieldRs1 w) (fieldRs2 w)),
    OpcodeRow.mk "SRL" 0xFE00707F#32 0x00005033#32 (fun w => .srl (fieldRd w) (fieldRs1 w) (fieldRs2 w)),
    OpcodeRow.mk "SRA" 0xFE00707F#32 0x40005033#32 (fun w => .sra (fieldRd w) (fieldRs1 w) (fieldRs2 w)),
    OpcodeRow.mk "OR" 0xFE00707F#32 0x00006033#32 (fun w => .or (fieldRd w) (fieldRs1 w) (fieldRs2 w)),
    OpcodeRow.mk "AND" 0xFE00707F#32 0x00007033#32 (fun w => .and (fieldRd w) (fieldRs1 w) (fieldRs2 w)) ]

/-- The opcode table (R106, spec/opcode_table.json), in its order. -/
def opcodeTable : List OpcodeRow :=
  opcodeRowsUpper ++ opcodeRowsJump ++ opcodeRowsBranch ++ opcodeRowsLoad ++ opcodeRowsStore ++
    opcodeRowsImmediate ++ opcodeRowsShiftImmediate ++ opcodeRowsRegister

/-! ### The decoder (R103) -/

/-- Why a word is not an instruction: the classes of R105 and R108, named. The hardware makes no difference between
them: each is `Empty` (log 33). -/
inductive DecodeReject where
  /-- No row has the word's major opcode `w[6:0]` (R105). -/
  | unusedMajorOpcode
  /-- A row has the major opcode, none the word's funct3 with it (R108). -/
  | unusedFunct3
  /-- Rows have the opcode and funct3, none the word's `w[31:25]` with them (R107, R108). -/
  | unusedFunct7
  deriving DecidableEq, Repr

/-- The class of a word that matches no row. -/
def decodeReject (w : Word) : DecodeReject :=
  if opcodeTable.any (fun row => w &&& 0x0000007F#32 == row.pattern &&& 0x0000007F#32) then
    if opcodeTable.any (fun row => w &&& (row.mask &&& 0x0000707F#32) == row.pattern &&& 0x0000707F#32) then
      .unusedFunct7
    else .unusedFunct3
  else .unusedMajorOpcode

/-- R103: the record of the row the word matches; a word that matches none is rejected by name. -/
def decode (w : Word) : Except DecodeReject Instr :=
  match opcodeTable.find? (fun row => row.selects w) with
  | some row => .ok (row.build w)
  | none => .error (decodeReject w)

/-- R103, `decode : Word32 → Slot`: what a slot that is held as the word `w` contains. -/
def decodeSlot (w : Word) : Slot :=
  match decode w with
  | .ok i => .instr i
  | .error _ => .empty

/-- R54: the word of four bytes of an image, the first holding bits 7 … 0. -/
def wordOfBytes (b0 b1 b2 b3 : Byte) : Word := b3 ++ b2 ++ b1 ++ b0

/-- R54, R275: the words of a byte image; an image that does not end on a word is refused (log 31). -/
def wordsOfBytes : List Byte → Option (List Word)
  | [] => some []
  | b0 :: b1 :: b2 :: b3 :: rest => (wordsOfBytes rest).map (wordOfBytes b0 b1 b2 b3 :: ·)
  | _ => none

/-- The instruction the decoder reads from an instruction whose bits, numbered as spec/opcode_table.json numbers them,
are the low `nbits` bits of `w`; every row of the table is one 32-bit word (R100). -/
def decodeTableWord (nbits w : Nat) : Option Instr :=
  match decode (BitVec.ofNat 32 (w % 2 ^ nbits)) with
  | .ok i => some i
  | .error _ => none

/-! ### The encoder (R104) -/

/-- R format: funct7, rs2, rs1, funct3, rd, opcode. -/
def encodeR (funct7 : BitVec 7) (rs2 rs1 : Reg) (funct3 : BitVec 3) (rd : Reg) (opcode : BitVec 7) : Word :=
  funct7 ++ rs2 ++ rs1 ++ funct3 ++ rd ++ opcode

/-- I format: imm[11:0], rs1, funct3, rd, opcode. -/
def encodeI (imm : Word) (rs1 : Reg) (funct3 : BitVec 3) (rd : Reg) (opcode : BitVec 7) : Word :=
  imm.extractLsb' 0 12 ++ rs1 ++ funct3 ++ rd ++ opcode

/-- S format: imm[11:5], rs2, rs1, funct3, imm[4:0], opcode. -/
def encodeS (imm : Word) (rs2 rs1 : Reg) (funct3 : BitVec 3) (opcode : BitVec 7) : Word :=
  imm.extractLsb' 5 7 ++ rs2 ++ rs1 ++ funct3 ++ imm.extractLsb' 0 5 ++ opcode

/-- B format: imm[12], imm[10:5], rs2, rs1, funct3, imm[4:1], imm[11], opcode. -/
def encodeB (imm : Word) (rs2 rs1 : Reg) (funct3 : BitVec 3) (opcode : BitVec 7) : Word :=
  imm.extractLsb' 12 1 ++ imm.extractLsb' 5 6 ++ rs2 ++ rs1 ++ funct3 ++ imm.extractLsb' 1 4 ++ imm.extractLsb' 11 1 ++ opcode

/-- U format: the 20-bit field, rd, opcode. -/
def encodeU (imm : Word) (rd : Reg) (opcode : BitVec 7) : Word :=
  imm.extractLsb' 0 20 ++ rd ++ opcode

/-- J format: imm[20], imm[10:1], imm[11], imm[19:12], rd, opcode. -/
def encodeJ (imm : Word) (rd : Reg) (opcode : BitVec 7) : Word :=
  imm.extractLsb' 20 1 ++ imm.extractLsb' 1 10 ++ imm.extractLsb' 11 1 ++ imm.extractLsb' 12 8 ++ rd ++ opcode

/-- The offset of an Offset-form target. A Label-form target has no word (R103): `encode` gives none for it. -/
def JumpTarget.offsetBits : JumpTarget → Word
  | .label _ => 0#32
  | .offset off => off

/-- The fields of the record's row filled in (R104); the word of the record where it is encodable. -/
def encodeWord : Instr → Word
  | .lui rd imm => encodeU imm rd 0b0110111#7
  | .auipc rd imm => encodeU imm rd 0b0010111#7
  | .jal rd target => encodeJ target.offsetBits rd 0b1101111#7
  | .jalr rd base offset => encodeI offset base 0b000#3 rd 0b1100111#7
  | .beq rs1 rs2 target => encodeB target.offsetBits rs2 rs1 0b000#3 0b1100011#7
  | .bne rs1 rs2 target => encodeB target.offsetBits rs2 rs1 0b001#3 0b1100011#7
  | .blt rs1 rs2 target => encodeB target.offsetBits rs2 rs1 0b100#3 0b1100011#7
  | .bge rs1 rs2 target => encodeB target.offsetBits rs2 rs1 0b101#3 0b1100011#7
  | .bltu rs1 rs2 target => encodeB target.offsetBits rs2 rs1 0b110#3 0b1100011#7
  | .bgeu rs1 rs2 target => encodeB target.offsetBits rs2 rs1 0b111#3 0b1100011#7
  | .lb rd address => encodeI address.offset address.base 0b000#3 rd 0b0000011#7
  | .lh rd address => encodeI address.offset address.base 0b001#3 rd 0b0000011#7
  | .lw rd address => encodeI address.offset address.base 0b010#3 rd 0b0000011#7
  | .lbu rd address => encodeI address.offset address.base 0b100#3 rd 0b0000011#7
  | .lhu rd address => encodeI address.offset address.base 0b101#3 rd 0b0000011#7
  | .sb rs address => encodeS address.offset rs address.base 0b000#3 0b0100011#7
  | .sh rs address => encodeS address.offset rs address.base 0b001#3 0b0100011#7
  | .sw rs address => encodeS address.offset rs address.base 0b010#3 0b0100011#7
  | .addi rd rs1 imm => encodeI imm rs1 0b000#3 rd 0b0010011#7
  | .slti rd rs1 imm => encodeI imm rs1 0b010#3 rd 0b0010011#7
  | .sltiu rd rs1 imm => encodeI imm rs1 0b011#3 rd 0b0010011#7
  | .xori rd rs1 imm => encodeI imm rs1 0b100#3 rd 0b0010011#7
  | .ori rd rs1 imm => encodeI imm rs1 0b110#3 rd 0b0010011#7
  | .andi rd rs1 imm => encodeI imm rs1 0b111#3 rd 0b0010011#7
  | .slli rd rs1 imm => encodeR 0b0000000#7 (imm.extractLsb' 0 5) rs1 0b001#3 rd 0b0010011#7
  | .srli rd rs1 imm => encodeR 0b0000000#7 (imm.extractLsb' 0 5) rs1 0b101#3 rd 0b0010011#7
  | .srai rd rs1 imm => encodeR 0b0100000#7 (imm.extractLsb' 0 5) rs1 0b101#3 rd 0b0010011#7
  | .add rd rs1 rs2 => encodeR 0b0000000#7 rs2 rs1 0b000#3 rd 0b0110011#7
  | .sub rd rs1 rs2 => encodeR 0b0100000#7 rs2 rs1 0b000#3 rd 0b0110011#7
  | .sll rd rs1 rs2 => encodeR 0b0000000#7 rs2 rs1 0b001#3 rd 0b0110011#7
  | .slt rd rs1 rs2 => encodeR 0b0000000#7 rs2 rs1 0b010#3 rd 0b0110011#7
  | .sltu rd rs1 rs2 => encodeR 0b0000000#7 rs2 rs1 0b011#3 rd 0b0110011#7
  | .xor rd rs1 rs2 => encodeR 0b0000000#7 rs2 rs1 0b100#3 rd 0b0110011#7
  | .srl rd rs1 rs2 => encodeR 0b0000000#7 rs2 rs1 0b101#3 rd 0b0110011#7
  | .sra rd rs1 rs2 => encodeR 0b0100000#7 rs2 rs1 0b101#3 rd 0b0110011#7
  | .or rd rs1 rs2 => encodeR 0b0000000#7 rs2 rs1 0b110#3 rd 0b0110011#7
  | .and rd rs1 rs2 => encodeR 0b0000000#7 rs2 rs1 0b111#3 rd 0b0110011#7

/-- R104: the partial encoder, defined on the encodable records (R94). -/
def encode (i : Instr) : Option Word := if i.wellFormed then some (encodeWord i) else none

end Sys2Proof
end

