-- ==== Sys2Proof/Machine/Memory.lean ====
section
/-! DEFINITION. A sparse table as a list of (key, value) pairs: how the two memories and the label table are held
(log 32). The canonical form is keys strictly rising and no value equal to what an unlisted key reads as. A write
first takes out every entry of its key, so what a read gives after a write does not depend on the form. -/

namespace Sys2Proof.Machine.Table

variable {κ α : Type}

/-- The value listed for a key. -/
def lookup [DecidableEq κ] (k : κ) : List (κ × α) → Option α
  | [] => none
  | e :: rest => if e.1 = k then some e.2 else lookup k rest

/-- The table without a key. -/
def erase [DecidableEq κ] (k : κ) (l : List (κ × α)) : List (κ × α) := l.filter (fun e => decide (e.1 ≠ k))

/-- The entry put before the first one whose key is not smaller. -/
def place [LT κ] [DecidableLT κ] (k : κ) (v : α) : List (κ × α) → List (κ × α)
  | [] => [(k, v)]
  | e :: rest => if e.1 < k then e :: place k v rest else (k, v) :: e :: rest

/-- The table with the key bound to the value, an earlier binding overwritten. -/
def bind [DecidableEq κ] [LT κ] [DecidableLT κ] (k : κ) (v : α) (l : List (κ × α)) : List (κ × α) :=
  place k v (erase k l)

/-- Reading a total memory: an unlisted key reads as `d`. -/
def read [DecidableEq κ] (d : α) (k : κ) (l : List (κ × α)) : α := (lookup k l).getD d

/-- Writing a total memory: the value an unlisted key reads as is not listed. -/
def write [DecidableEq κ] [LT κ] [DecidableLT κ] [DecidableEq α] (d : α) (k : κ) (v : α) (l : List (κ × α)) :
    List (κ × α) :=
  if v = d then erase k l else bind k v l

end Sys2Proof.Machine.Table
end

