-- ==== Sys2Proof/Config.lean ====
section
/-! DEFINITION. The implementation parameters of 00_scope.md rule R7 as one configuration record, and the reference
values the machine of this package is built with (log 6). XLEN, NREGS and ILEN are fixed by the spec and are not
fields: they are the widths of `Word` and `Reg` and the constant 4 of the pc's advance. -/

namespace Sys2Proof

/-- The parameters of R7 that an implementation fixes. -/
structure Config where
  /-- IMEM_BYTES, the address range of the instruction memory; a power of two, at least 4 (D24). -/
  imemBytes : Nat
  /-- DMEM_BYTES, the capacity of the data memory; a power of two (D24). -/
  dmemBytes : Nat
  /-- RESET_PC (D11). -/
  resetPc : Word
  /-- INIT_REGS, the launch value of each of x[1] to x[31] (D12). -/
  initReg : Word
  /-- INIT_DMEM, the launch value of each data byte (D13). -/
  initDmem : Byte
  deriving DecidableEq, Repr

/-- The reference values of R7. DESIGN CHOICE (log 3 to 6). -/
def Config.reference : Config :=
  { imemBytes := 4096, dmemBytes := 16384, resetPc := 0#32, initReg := 0#32, initDmem := 0#8 }

/-- IMEM_BYTES of this machine. -/
def imemBytes : Nat := Config.reference.imemBytes

/-- IMEM_SLOTS = IMEM_BYTES / 4 (R7). -/
def imemSlots : Nat := imemBytes / 4

/-- DMEM_BYTES of this machine. -/
def dmemBytes : Nat := Config.reference.dmemBytes

end Sys2Proof
end

