-- ==== Sys2Proof/Machine/State.lean ====
section
/-! DEFINITION. The architectural state (10_state.md rule R20), its value after reset (R39, R260), and the reasons a
step can stop (60_exceptions.md rules R235, R236). State is plain data; the forms of its lists are stated in
Sys2Proof/Safety.lean and their operations in Sys2Proof/Machine/Memory.lean and Ops.lean. -/

namespace Sys2Proof.Machine

/-- How an instruction-memory slot is held (R28, D1, log 2): a decoded record (record level) or a 32-bit word that
stands for its decoding (word level). The word 0 is the reset content, which decodes to Empty. -/
inductive SlotHold where
  | record (i : Instr)
  | word (w : Word)
  deriving DecidableEq, Repr

/-- R20: `(pc, x, imem, dmem, labels)`, and nothing else. -/
structure State where
  /-- The program counter (R25): the address of the instruction the next step executes. -/
  pc : Word
  /-- `x[1]` … `x[31]`, `x[i]` at index `i - 1`; `x[0]` is the constant 0 and is not stored (R20, R21). -/
  regs : Vector Word 31
  /-- Instruction memory: (slot index, holding), rising, no holding equal to the word 0 an unlisted slot reads as. -/
  imem : List (Nat × SlotHold)
  /-- Data memory: (byte index, byte), rising, no byte equal to the INIT_DMEM an unlisted index reads as. -/
  dmem : List Host.Cell
  /-- The label table: (name, address), names rising (R31). -/
  labels : List (LabelName × Word)
  deriving DecidableEq, Repr

/-- The execution-time errors (R230): reported to the driver, the state unchanged (R233). -/
inductive Fault where
  /-- Raised by JAL, and by a branch whose condition holds, when the target is a label with no entry in the label
  table (R235). The hardware's own error: safe. -/
  | unknownLabel (name : LabelName)
  /-- Raised by fetch when the slot at the pc holds no instruction (R236). The spec's choice between two policies its
  source permits (D4): unsafe for an implementation that runs empty slots as no-operations (log 7). -/
  | invalidOpcode
  deriving DecidableEq, Repr

/-- A step of this model refuses nothing: every instruction of the table has its meaning. -/
inductive Refusal where
  /-- Raised by an arm of `exec` whose instruction has no meaning yet; no arm is left so. Safe. -/
  | notModelled (mnemonic : String)
  deriving DecidableEq, Repr

/-- R39, R260: the state after reset and before the loader runs. -/
def State.reset : State :=
  { pc := Config.reference.resetPc
    regs := Vector.replicate 31 Config.reference.initReg
    imem := []
    dmem := []
    labels := [] }

end Sys2Proof.Machine
end

