-- ==== Sys2Proof/Machine/Ops.lean ====
section
/-! DEFINITION. The named operations over the state: registers (10_state.md R21, R22), the pc (R25, R26), instruction
memory and fetch (20_memory.md R52, R53), the data port (R55 to R62), the label table (R31), the commit of a step
(60_exceptions.md R231) and the raising of an error (R233). -/

namespace Sys2Proof.Machine

/-! ### Registers and pc -/

/-- `x[i]` (R21): register 0 reads as 0. -/
def State.readReg (s : State) (i : Reg) : Word :=
  if i = 0#5 then 0#32 else s.regs[i.toNat - 1]?.getD 0#32

/-- `x[i] <- v` (R22): a write of register 0 is discarded. -/
def State.writeReg (s : State) (i : Reg) (v : Word) : State :=
  if i = 0#5 then s else { s with regs := s.regs.setIfInBounds (i.toNat - 1) v }

/-- `pc <- t` (R11). -/
def State.setPc (s : State) (t : Word) : State := { s with pc := t }

/-- `pc +32 4`, the default next pc and the link value (R12, R26). -/
def State.nextPc (s : State) : Word := s.pc + 4#32

/-! ### Instruction memory and fetch -/

/-- R52: the slot an instruction address selects. -/
def iTrans (a : Word) : Nat := (a.toNat &&& (imemBytes - 1)) / 4

/-- What an unlisted slot is held as: the word 0 of the reset content (R39). -/
def resetSlot : SlotHold := .word 0#32

/-- How slot `k` is held. -/
def State.slotHold (s : State) (k : Nat) : SlotHold := Table.read resetSlot k s.imem

/-- The content of a slot (R28, R103): a word stands for its decoding. -/
def SlotHold.content : SlotHold → Slot
  | .record i => .instr i
  | .word w => decodeSlot w

/-- `imem[k]`, a Slot (R28). -/
def State.slot (s : State) (k : Nat) : Slot := (s.slotHold k).content

/-- `Fetch(a)` (R53). -/
def State.fetchAt (s : State) (a : Word) : Slot := s.slot (iTrans a)

/-- The one fetch of a step, at the pc (R53). -/
def State.fetch (s : State) : Slot := s.fetchAt s.pc

/-- The loader's write of one slot (R29, R266, R275); no instruction calls it. -/
def State.putSlot (s : State) (k : Nat) (h : SlotHold) : State :=
  { s with imem := Table.write resetSlot k h s.imem }

/-- The low `nbits` bits of `w` as one instruction word in the slot the next step fetches. -/
def State.putFetchWord (s : State) (nbits w : Nat) : State :=
  s.putSlot (iTrans s.pc) (.word (BitVec.ofNat 32 (w % 2 ^ nbits)))

/-! ### Data memory -/

/-- R55: the data byte an address names. -/
def dTrans (a : Word) : Nat := a.toNat &&& (dmemBytes - 1)

/-- R59: byte `i` of the window that starts at the translated address; past the last byte it continues at byte 0. -/
def windowIndex (a : Word) (i : Nat) : Nat := (dTrans a + i) % dmemBytes

/-- `dmem[k]` (R30); a byte nothing has written reads as INIT_DMEM (log 5). -/
def State.dmemByte (s : State) (k : Nat) : Byte := Table.read Config.reference.initDmem k s.dmem

/-- `dmem[k] := b`. -/
def State.putDmemByte (s : State) (k : Nat) (b : Byte) : State :=
  { s with dmem := Table.write Config.reference.initDmem k b s.dmem }

/-- R60: a window byte as a load takes it, 0 where its enable bit is not set. -/
def State.loadedByte (s : State) (a : Word) (be : BitVec 4) (i : Nat) : Byte :=
  if be.getLsbD i then s.dmemByte (windowIndex a i) else 0#8

/-- `DmemLoad(a, be)` (R60): `b3 ‖ b2 ‖ b1 ‖ b0`. -/
def State.dmemLoad (s : State) (a : Word) (be : BitVec 4) : Word :=
  s.loadedByte a be 3 ++ s.loadedByte a be 2 ++ s.loadedByte a be 1 ++ s.loadedByte a be 0

/-- R61: window byte `i` takes `v[8i+7:8i]` where its enable bit is set, else keeps its value. -/
def State.storedByte (s : State) (a : Word) (be : BitVec 4) (v : Word) (i : Nat) : State :=
  if be.getLsbD i then s.putDmemByte (windowIndex a i) (v.extractLsb' (8 * i) 8) else s

/-- `DmemStore(a, be, v)` (R61). -/
def State.dmemStore (s : State) (a : Word) (be : BitVec 4) (v : Word) : State :=
  (((s.storedByte a be v 0).storedByte a be v 1).storedByte a be v 2).storedByte a be v 3

/-- The number of bytes of an access (R62). -/
inductive AccessSize where
  | one | two | four
  deriving DecidableEq, Repr

/-- `n` of R62. -/
def AccessSize.bytes : AccessSize → Nat
  | .one => 1
  | .two => 2
  | .four => 4

/-- `BE_n` of R62. -/
def AccessSize.enables : AccessSize → BitVec 4
  | .one => 0b0001#4
  | .two => 0b0011#4
  | .four => 0b1111#4

/-- `MemRead(a, n)` (R62), the little-endian value of the `n` bytes, as a 32-bit pattern. -/
def State.memRead (s : State) (a : Word) (n : AccessSize) : Word := s.dmemLoad a n.enables

/-- `MemWrite(a, n, v)` (R62). -/
def State.memWrite (s : State) (a : Word) (n : AccessSize) (v : Word) : State := s.dmemStore a n.enables v

/-! ### Label table -/

/-- The address a name is bound to (R31). -/
def State.labelAddress (s : State) (name : LabelName) : Option Word := Table.lookup name s.labels

/-- The loader's binding, overwriting an earlier one (R266, R267); no instruction calls it. -/
def State.bindLabel (s : State) (name : LabelName) (a : Word) : State :=
  { s with labels := Table.bind name a s.labels }

/-! ### The end of a step -/

/-- The outcome of a step of this machine. -/
abbrev StepOutcome := Host.Outcome State Fault Refusal

/-- Commit (R231 stage 4) of an instruction with a destination: the register and the pc written together. -/
def State.commit (s : State) (rd : Reg) (v next : Word) : StepOutcome := .next ((s.writeReg rd v).setPc next)

/-- `raise E` (R11, R233): the step ends with the error and writes nothing. This hardware's only exception: there is no
saved pc, no cause, no handler, no mode and no return (R234, R238). -/
def raise (f : Fault) : StepOutcome := .fault f

end Sys2Proof.Machine
end

