-- ==== Sys2Proof/Machine/Operands.lean ====
section
/-! DEFINITION. The operand forms: the upper immediate (40_upper_immediate.md R130), the base-plus-offset address (R91,
R160, R170), the jump target (41_jumps.md R142), and the byte enables and extension of each width (20_memory.md R64,
R65). -/

namespace Sys2Proof.Machine

/-- `(imm AND 0x000FFFFF) << 12` (R130, R131). -/
def upperImmediate (imm : Word) : Word := (imm &&& 0x000FFFFF#32) <<< 12

/-- `x[base] +32 offset` (R160, R170). -/
def State.effectiveAddress (s : State) (address : Address) : Word := s.readReg address.base + address.offset

/-- `Resolve(target, p)` with `p` the pc (R142): the address, or the error it raises. -/
def State.resolve (s : State) : JumpTarget → Except Fault Word
  | .label name =>
    match s.labelAddress name with
    | some t => .ok t
    | none => .error (.unknownLabel name)
  | .offset off => .ok (s.pc + off)

/-- R64: the size a load's width asserts enables for. -/
def loadSize : LoadWidth → AccessSize
  | .byte => .one
  | .half => .two
  | .word => .four
  | .byteUnsigned => .one
  | .halfUnsigned => .two

/-- R64: the size a store's width asserts enables for. -/
def storeSize : StoreWidth → AccessSize
  | .byte => .one
  | .half => .two
  | .word => .four

/-- `LoadExtend(width, raw)` (R65). -/
def loadExtend (width : LoadWidth) (raw : Word) : Word :=
  match width with
  | .byte => (raw.extractLsb' 0 8).signExtend 32
  | .half => (raw.extractLsb' 0 16).signExtend 32
  | .word => raw
  | .byteUnsigned => (raw.extractLsb' 0 8).setWidth 32
  | .halfUnsigned => (raw.extractLsb' 0 16).setWidth 32

end Sys2Proof.Machine
end

