-- ==== Sys2Proof/Machine/Branches.lean ====
section
/-! DEFINITION. The six conditional branches (42_branches.md). -/

namespace Sys2Proof.Machine

/-- R150: the target is resolved only where the condition holds (D15, log 12). -/
def branch (cond : BranchCondition) (rs1 rs2 : Reg) (target : JumpTarget) (s : State) : StepOutcome :=
  if conditionHolds cond (s.readReg rs1) (s.readReg rs2) then
    match s.resolve target with
    | .ok t => .next (s.setPc t)
    | .error f => raise f
  else .next (s.setPc s.nextPc)

/-- R151. -/
def execBeq (rs1 rs2 : Reg) (target : JumpTarget) (s : State) : StepOutcome := branch .eq rs1 rs2 target s

/-- R152. -/
def execBne (rs1 rs2 : Reg) (target : JumpTarget) (s : State) : StepOutcome := branch .ne rs1 rs2 target s

/-- R153. -/
def execBlt (rs1 rs2 : Reg) (target : JumpTarget) (s : State) : StepOutcome := branch .lt rs1 rs2 target s

/-- R154. -/
def execBge (rs1 rs2 : Reg) (target : JumpTarget) (s : State) : StepOutcome := branch .ge rs1 rs2 target s

/-- R155. -/
def execBltu (rs1 rs2 : Reg) (target : JumpTarget) (s : State) : StepOutcome := branch .ltu rs1 rs2 target s

/-- R156. -/
def execBgeu (rs1 rs2 : Reg) (target : JumpTarget) (s : State) : StepOutcome := branch .geu rs1 rs2 target s

end Sys2Proof.Machine
end

