-- ==== Sys2Proof/Machine/Alu.lean ====
section
/-! DEFINITION. The integer operations of 45_integer_immediate.md R180 and 46_integer_register.md R200, under the laws
of R190: 32-bit patterns in and out, wrapping, shift amounts reduced to their low 5 bits. -/

namespace Sys2Proof.Machine

/-- `v AND 0x1F` (R180, R200). -/
def shiftAmount (v : Word) : Nat := (v &&& 0x1F#32).toNat

/-- `a << n` (R10). -/
def shiftLeft (a : Word) (n : Nat) : Word := a <<< n

/-- `a >>u n` (R10). -/
def shiftRightLogical (a : Word) (n : Nat) : Word := a >>> n

/-- `a >>s n` (R10). -/
def shiftRightArithmetic (a : Word) (n : Nat) : Word := a.sshiftRight n

/-- `r` of R200. -/
def integerRegisterResult (op : IntegerRegisterOp) (a b : Word) : Word :=
  match op with
  | .add => a + b
  | .sub => a - b
  | .sll => shiftLeft a (shiftAmount b)
  | .slt => oneIf (lessSigned a b)
  | .sltu => oneIf (lessUnsigned a b)
  | .xor => a ^^^ b
  | .srl => shiftRightLogical a (shiftAmount b)
  | .sra => shiftRightArithmetic a (shiftAmount b)
  | .or => a ||| b
  | .and => a &&& b

/-- `r` of R180, with the immediate used as the 32-bit pattern `I` (R183, D25, log 17). -/
def integerImmediateResult (op : IntegerImmediateOp) (a imm : Word) : Word :=
  match op with
  | .add => a + imm
  | .slt => oneIf (lessSigned a imm)
  | .sltu => oneIf (lessUnsigned a imm)
  | .xor => a ^^^ imm
  | .or => a ||| imm
  | .and => a &&& imm
  | .sll => shiftLeft a (shiftAmount imm)
  | .srl => shiftRightLogical a (shiftAmount imm)
  | .sra => shiftRightArithmetic a (shiftAmount imm)

end Sys2Proof.Machine
end

