-- ==== Sys2Proof/Machine/IntegerImmediate.lean ====
section
/-! DEFINITION. The nine register-immediate instructions (45_integer_immediate.md). -/

namespace Sys2Proof.Machine

/-- R180. -/
def integerImmediate (op : IntegerImmediateOp) (rd rs1 : Reg) (imm : Word) (s : State) : StepOutcome :=
  s.commit rd (integerImmediateResult op (s.readReg rs1) imm) s.nextPc

/-- R181. -/
def execAddi (rd rs1 : Reg) (imm : Word) (s : State) : StepOutcome := integerImmediate .add rd rs1 imm s

/-- R182. -/
def execSlti (rd rs1 : Reg) (imm : Word) (s : State) : StepOutcome := integerImmediate .slt rd rs1 imm s

/-- R183. -/
def execSltiu (rd rs1 : Reg) (imm : Word) (s : State) : StepOutcome := integerImmediate .sltu rd rs1 imm s

/-- R184. -/
def execXori (rd rs1 : Reg) (imm : Word) (s : State) : StepOutcome := integerImmediate .xor rd rs1 imm s

/-- R185. -/
def execOri (rd rs1 : Reg) (imm : Word) (s : State) : StepOutcome := integerImmediate .or rd rs1 imm s

/-- R186. -/
def execAndi (rd rs1 : Reg) (imm : Word) (s : State) : StepOutcome := integerImmediate .and rd rs1 imm s

/-- R187. -/
def execSlli (rd rs1 : Reg) (imm : Word) (s : State) : StepOutcome := integerImmediate .sll rd rs1 imm s

/-- R188. -/
def execSrli (rd rs1 : Reg) (imm : Word) (s : State) : StepOutcome := integerImmediate .srl rd rs1 imm s

/-- R189. -/
def execSrai (rd rs1 : Reg) (imm : Word) (s : State) : StepOutcome := integerImmediate .sra rd rs1 imm s

end Sys2Proof.Machine
end

