-- ==== Sys2Proof/Machine/IntegerRegister.lean ====
section
/-! DEFINITION. The ten register-register instructions (46_integer_register.md). -/

namespace Sys2Proof.Machine

/-- R200. -/
def integerRegister (op : IntegerRegisterOp) (rd rs1 rs2 : Reg) (s : State) : StepOutcome :=
  s.commit rd (integerRegisterResult op (s.readReg rs1) (s.readReg rs2)) s.nextPc

/-- R201. -/
def execAdd (rd rs1 rs2 : Reg) (s : State) : StepOutcome := integerRegister .add rd rs1 rs2 s

/-- R202. -/
def execSub (rd rs1 rs2 : Reg) (s : State) : StepOutcome := integerRegister .sub rd rs1 rs2 s

/-- R203. -/
def execSll (rd rs1 rs2 : Reg) (s : State) : StepOutcome := integerRegister .sll rd rs1 rs2 s

/-- R204. -/
def execSlt (rd rs1 rs2 : Reg) (s : State) : StepOutcome := integerRegister .slt rd rs1 rs2 s

/-- R205. -/
def execSltu (rd rs1 rs2 : Reg) (s : State) : StepOutcome := integerRegister .sltu rd rs1 rs2 s

/-- R206. -/
def execXor (rd rs1 rs2 : Reg) (s : State) : StepOutcome := integerRegister .xor rd rs1 rs2 s

/-- R207. -/
def execSrl (rd rs1 rs2 : Reg) (s : State) : StepOutcome := integerRegister .srl rd rs1 rs2 s

/-- R208. -/
def execSra (rd rs1 rs2 : Reg) (s : State) : StepOutcome := integerRegister .sra rd rs1 rs2 s

/-- R209. -/
def execOr (rd rs1 rs2 : Reg) (s : State) : StepOutcome := integerRegister .or rd rs1 rs2 s

/-- R210. -/
def execAnd (rd rs1 rs2 : Reg) (s : State) : StepOutcome := integerRegister .and rd rs1 rs2 s

end Sys2Proof.Machine
end

