-- ==== Sys2Proof/Machine/Jumps.lean ====
section
/-! DEFINITION. JAL and JALR (41_jumps.md). No target is checked for alignment (R143) and there is no delay slot (R144). -/

namespace Sys2Proof.Machine

/-- R140: the link value is written only where the target resolves (D36, log 13). -/
def execJal (rd : Reg) (target : JumpTarget) (s : State) : StepOutcome :=
  match s.resolve target with
  | .ok t => s.commit rd s.nextPc t
  | .error f => raise f

/-- R141: the base is read before the link is written (D16, log 11); bit 0 of the sum is cleared. -/
def execJalr (rd base : Reg) (offset : Word) (s : State) : StepOutcome :=
  s.commit rd s.nextPc ((s.readReg base + offset) &&& 0xFFFFFFFE#32)

end Sys2Proof.Machine
end

