-- ==== Sys2Proof/Machine/Loads.lean ====
section
/-! DEFINITION. The five loads (43_loads.md). No address is invalid and no alignment is required. -/

namespace Sys2Proof.Machine

/-- R160. -/
def load (width : LoadWidth) (rd : Reg) (address : Address) (s : State) : StepOutcome :=
  s.commit rd (loadExtend width (s.memRead (s.effectiveAddress address) (loadSize width))) s.nextPc

/-- R161. -/
def execLb (rd : Reg) (address : Address) (s : State) : StepOutcome := load .byte rd address s

/-- R162. -/
def execLh (rd : Reg) (address : Address) (s : State) : StepOutcome := load .half rd address s

/-- R163. -/
def execLw (rd : Reg) (address : Address) (s : State) : StepOutcome := load .word rd address s

/-- R164. -/
def execLbu (rd : Reg) (address : Address) (s : State) : StepOutcome := load .byteUnsigned rd address s

/-- R165. -/
def execLhu (rd : Reg) (address : Address) (s : State) : StepOutcome := load .halfUnsigned rd address s

end Sys2Proof.Machine
end

