-- ==== Sys2Proof/Machine/Stores.lean ====
section
/-! DEFINITION. The three stores (44_stores.md). No address is invalid and no alignment is required. -/

namespace Sys2Proof.Machine

/-- R170: all 32 bits of the register are presented to the port; the width's enables gate the bytes (D6, log 8). -/
def store (width : StoreWidth) (rs : Reg) (address : Address) (s : State) : StepOutcome :=
  .next ((s.memWrite (s.effectiveAddress address) (storeSize width) (s.readReg rs)).setPc s.nextPc)

/-- R171. -/
def execSb (rs : Reg) (address : Address) (s : State) : StepOutcome := store .byte rs address s

/-- R172. -/
def execSh (rs : Reg) (address : Address) (s : State) : StepOutcome := store .half rs address s

/-- R173. -/
def execSw (rs : Reg) (address : Address) (s : State) : StepOutcome := store .word rs address s

end Sys2Proof.Machine
end

