-- ==== Sys2Proof/Machine/Upper.lean ====
section
/-! DEFINITION. LUI and AUIPC (40_upper_immediate.md). -/

namespace Sys2Proof.Machine

/-- R130. -/
def execLui (rd : Reg) (imm : Word) (s : State) : StepOutcome := s.commit rd (upperImmediate imm) s.nextPc

/-- R131: the pc is the address of the AUIPC itself, all 32 bits of it. -/
def execAuipc (rd : Reg) (imm : Word) (s : State) : StepOutcome := s.commit rd (s.pc + upperImmediate imm) s.nextPc

end Sys2Proof.Machine
end

