-- ==== Sys2Proof/Machine/Dispatch.lean ====
section
/-! DEFINITION. The dispatch on the record's tag (60_exceptions.md R231 stage 2; R90: "a single exhaustive match"). -/

namespace Sys2Proof.Machine

def exec (i : Instr) (s : State) : Host.Outcome State Fault Refusal :=
  match i with
  | .lui rd imm => Sys2Proof.Machine.execLui rd imm s
  | .auipc rd imm => Sys2Proof.Machine.execAuipc rd imm s
  | .jal rd target => Sys2Proof.Machine.execJal rd target s
  | .jalr rd base offset => Sys2Proof.Machine.execJalr rd base offset s
  | .beq rs1 rs2 target => Sys2Proof.Machine.execBeq rs1 rs2 target s
  | .bne rs1 rs2 target => Sys2Proof.Machine.execBne rs1 rs2 target s
  | .blt rs1 rs2 target => Sys2Proof.Machine.execBlt rs1 rs2 target s
  | .bge rs1 rs2 target => Sys2Proof.Machine.execBge rs1 rs2 target s
  | .bltu rs1 rs2 target => Sys2Proof.Machine.execBltu rs1 rs2 target s
  | .bgeu rs1 rs2 target => Sys2Proof.Machine.execBgeu rs1 rs2 target s
  | .lb rd address => Sys2Proof.Machine.execLb rd address s
  | .lh rd address => Sys2Proof.Machine.execLh rd address s
  | .lw rd address => Sys2Proof.Machine.execLw rd address s
  | .lbu rd address => Sys2Proof.Machine.execLbu rd address s
  | .lhu rd address => Sys2Proof.Machine.execLhu rd address s
  | .sb rs address => Sys2Proof.Machine.execSb rs address s
  | .sh rs address => Sys2Proof.Machine.execSh rs address s
  | .sw rs address => Sys2Proof.Machine.execSw rs address s
  | .addi rd rs1 imm => Sys2Proof.Machine.execAddi rd rs1 imm s
  | .slti rd rs1 imm => Sys2Proof.Machine.execSlti rd rs1 imm s
  | .sltiu rd rs1 imm => Sys2Proof.Machine.execSltiu rd rs1 imm s
  | .xori rd rs1 imm => Sys2Proof.Machine.execXori rd rs1 imm s
  | .ori rd rs1 imm => Sys2Proof.Machine.execOri rd rs1 imm s
  | .andi rd rs1 imm => Sys2Proof.Machine.execAndi rd rs1 imm s
  | .slli rd rs1 imm => Sys2Proof.Machine.execSlli rd rs1 imm s
  | .srli rd rs1 imm => Sys2Proof.Machine.execSrli rd rs1 imm s
  | .srai rd rs1 imm => Sys2Proof.Machine.execSrai rd rs1 imm s
  | .add rd rs1 rs2 => Sys2Proof.Machine.execAdd rd rs1 rs2 s
  | .sub rd rs1 rs2 => Sys2Proof.Machine.execSub rd rs1 rs2 s
  | .sll rd rs1 rs2 => Sys2Proof.Machine.execSll rd rs1 rs2 s
  | .slt rd rs1 rs2 => Sys2Proof.Machine.execSlt rd rs1 rs2 s
  | .sltu rd rs1 rs2 => Sys2Proof.Machine.execSltu rd rs1 rs2 s
  | .xor rd rs1 rs2 => Sys2Proof.Machine.execXor rd rs1 rs2 s
  | .srl rd rs1 rs2 => Sys2Proof.Machine.execSrl rd rs1 rs2 s
  | .sra rd rs1 rs2 => Sys2Proof.Machine.execSra rd rs1 rs2 s
  | .or rd rs1 rs2 => Sys2Proof.Machine.execOr rd rs1 rs2 s
  | .and rd rs1 rs2 => Sys2Proof.Machine.execAnd rd rs1 rs2 s

end Sys2Proof.Machine
end

