-- ==== Sys2Proof/Machine/Step.lean ====
section
/-! DEFINITION. The one transition of the engine (60_exceptions.md R231): fetch the slot at the pc, dispatch and
execute its record; an empty slot raises InvalidOpcode (R236). -/

namespace Sys2Proof.Machine

/-- One step (R231). -/
def step (s : State) : Host.Outcome State Fault Refusal :=
  match s.fetch with
  | .instr i => exec i s
  | .empty => raise .invalidOpcode

/-- The state with the instruction whose bits are the low `nbits` of `w` held, as a word (R28), in the slot that the
next step fetches; nothing else changes. It stands for the load of a word image (R275), which only the driver can do
(log 18). -/
def State.withFetchWord (s : State) (nbits w : Nat) : State := s.putFetchWord nbits w

end Sys2Proof.Machine
end

