-- ==== Sys2Proof/Machine/Loader.lean ====
section
/-! DEFINITION. The boot procedure (70_reset_and_hazards.md R265 to R275): the loader that writes instruction memory
and the label table from a program of records, and the loading of a word image. Loading starts from the reset state
and writes nothing else; on an error no state is produced (60_exceptions.md R240). -/

namespace Sys2Proof.Machine

/-- A line of a Program (R266). -/
inductive ProgramLine where
  | instruction (i : Instr)
  | label (name : LabelName)
  deriving DecidableEq, Repr

/-- R266: "ordered sequence of {Instruction | Label} lines". -/
abbrev Program := List ProgramLine

/-- The load-time errors (R240), each with the token or place that diagnoses it. -/
inductive LoadError where
  /-- A register operand's text is not in the name table. -/
  | invalidRegisterName (token : String)
  /-- A numeric literal is malformed or does not fit the operand's width. -/
  | invalidNumericLiteral (token : String)
  /-- The program has more instructions than IMEM_SLOTS; the address the next one would take. -/
  | programTooLarge (address : Nat)
  deriving DecidableEq, Repr

/-- R266's loop, from the running address on. -/
def loadLines : Program → Nat → State → Except LoadError State
  | [], _, s => .ok s
  | .instruction i :: rest, addr, s =>
    if imemSlots ≤ addr / 4 then .error (.programTooLarge addr)
    else loadLines rest (addr + 4) (s.putSlot (addr / 4) (.record i))
  | .label name :: rest, addr, s => loadLines rest addr (s.bindLabel name (BitVec.ofNat 32 addr))

/-- The loader (R266) on the state after reset (R265). -/
def loadProgram (p : Program) : Except LoadError State := loadLines p 0 State.reset

/-- The words of an image written to consecutive slots. -/
def placeWords : List Word → Nat → State → State
  | [], _, s => s
  | w :: rest, k, s => placeWords rest (k + 1) (s.putSlot k (.word w))

/-- R275: the load of a word-level image on the state after reset. -/
def loadImage (ws : List Word) : Except LoadError State :=
  if ws.length ≤ imemSlots then .ok (placeWords ws 0 State.reset)
  else .error (.programTooLarge (4 * imemSlots))

/-- R54, R275: the load of an image supplied as bytes; none where it does not end on a word (log 31). -/
def loadByteImage (bs : List Byte) : Option (Except LoadError State) := (wordsOfBytes bs).map loadImage

end Sys2Proof.Machine
end

