-- ==== Sys2Proof/Machine/Assembly.lean ====
section
/-! DEFINITION. Operand construction, at the edge of the core (30_encoding.md R120 to R122, 10_state.md R23,
60_exceptions.md R240): from the front end's typed parse nodes to a Program. The textual grammar itself is out of scope
(00_scope.md R6). What the spec leaves unsettled here is refused by name (93_implementation_defined.md U16, U17, U19,
U20; log 21 to 23, 35). -/

namespace Sys2Proof.Machine

/-- R120: an operand as the front end hands it over, its text not yet converted. -/
inductive Operand where
  | register (text : String)
  | literal (text : String)
  | address (offset base : String)
  | name (text : String)
  deriving DecidableEq, Repr

/-- R120: a line as the front end hands it over. -/
inductive SourceLine where
  | label (name : String)
  | instruction (mnemonic : String) (operands : List Operand)
  deriving DecidableEq, Repr

/-- What the spec gives no result for at the assembler edge: no error is asserted and nothing is accepted. All safe. -/
inductive LoadRefusal where
  /-- A mnemonic outside R121 (U16, N5). -/
  | unknownMnemonic (mnemonic : String)
  /-- A wrong operand count or kind (U16, N5, N10). -/
  | operandMismatch (mnemonic : String)
  /-- `x0` … `x31` (U17, N7). -/
  | numericRegisterName (token : String)
  /-- A hexadecimal literal with bit 31 set for a signed operand (U19, N9). -/
  | unsettledHexLiteral (token : String)
  /-- A label name that is empty (R31), equal to a register name or a mnemonic (U20, N8, N17), or `x0` … `x31` (log 35). -/
  | unsettledLabelName (name : String)
  deriving DecidableEq, Repr

/-- Why a source program is not loaded. -/
inductive LoadStop where
  | error (e : LoadError)
  | refused (r : LoadRefusal)
  deriving DecidableEq, Repr

/-! ### Registers (R23) -/

/-- R23: 33 names for the 32 indices, `fp` = `s0`. -/
def registerNames : List (String × Reg) :=
  [ ("zero", 0#5), ("ra", 1#5), ("sp", 2#5), ("gp", 3#5), ("tp", 4#5), ("t0", 5#5), ("t1", 6#5), ("t2", 7#5),
    ("s0", 8#5), ("s1", 9#5), ("a0", 10#5), ("a1", 11#5), ("a2", 12#5), ("a3", 13#5), ("a4", 14#5), ("a5", 15#5),
    ("a6", 16#5), ("a7", 17#5), ("s2", 18#5), ("s3", 19#5), ("s4", 20#5), ("s5", 21#5), ("s6", 22#5), ("s7", 23#5),
    ("s8", 24#5), ("s9", 25#5), ("s10", 26#5), ("s11", 27#5), ("t3", 28#5), ("t4", 29#5), ("t5", 30#5), ("t6", 31#5),
    ("fp", 8#5) ]

/-- The numeric spellings the spec neither accepts nor rejects (U17). -/
def numericRegisterNames : List String := (List.range 32).map (fun n => "x" ++ toString n)

/-- R23, R240: an exact match against the table. -/
def constructRegister (text : String) : Except LoadStop Reg :=
  match Table.lookup text registerNames with
  | some r => .ok r
  | none =>
    if text ∈ numericRegisterNames then .error (.refused (.numericRegisterName text))
    else .error (.error (.invalidRegisterName text))

/-! ### Numeric literals (R122) -/

/-- The two lexical forms, a decimal with or without a leading minus sign (D33). -/
inductive NumericLiteral where
  | decimal (negative : Bool) (magnitude : Nat)
  | hexadecimal (magnitude : Nat)
  deriving DecidableEq, Repr

/-- The value of a digit of the base. -/
def digitValue (base : Nat) (c : Char) : Option Nat :=
  let n := c.toNat
  let d := if 48 ≤ n ∧ n ≤ 57 then n - 48 else if 97 ≤ n ∧ n ≤ 102 then n - 87 else if 65 ≤ n ∧ n ≤ 70 then n - 55 else base
  if d < base then some d else none

/-- The digits read most significant first. -/
def digitsValue (base : Nat) : List Char → Nat → Option Nat
  | [], acc => some acc
  | c :: rest, acc =>
    match digitValue base c with
    | some d => digitsValue base rest (acc * base + d)
    | none => none

/-- At least one digit. -/
def numeralValue (base : Nat) (digits : List Char) : Option Nat :=
  if digits = [] then none else digitsValue base digits 0

/-- R122; none where the digits are malformed. -/
def parseLiteral (text : String) : Option NumericLiteral :=
  match text.toList with
  | '0' :: 'x' :: digits => (numeralValue 16 digits).map .hexadecimal
  | '-' :: digits => (numeralValue 10 digits).map (.decimal true)
  | digits => (numeralValue 10 digits).map (.decimal false)

/-- R122, the `u32` of LUI and AUIPC immediates. -/
def constructUnsigned (text : String) : Except LoadStop Word :=
  match parseLiteral text with
  | some (.decimal false n) =>
    if n < 2 ^ 32 then .ok (BitVec.ofNat 32 n) else .error (.error (.invalidNumericLiteral text))
  | some (.hexadecimal n) =>
    if n < 2 ^ 32 then .ok (BitVec.ofNat 32 n) else .error (.error (.invalidNumericLiteral text))
  | some (.decimal true _) => .error (.error (.invalidNumericLiteral text))
  | none => .error (.error (.invalidNumericLiteral text))

/-- R122, the `i32` of address offsets, jump offsets and ALU immediates. -/
def constructSigned (text : String) : Except LoadStop Word :=
  match parseLiteral text with
  | some (.decimal false n) =>
    if n < 2 ^ 31 then .ok (BitVec.ofNat 32 n) else .error (.error (.invalidNumericLiteral text))
  | some (.decimal true n) =>
    if n ≤ 2 ^ 31 then .ok (BitVec.ofInt 32 (-(n : Int))) else .error (.error (.invalidNumericLiteral text))
  | some (.hexadecimal n) =>
    if n < 2 ^ 31 then .ok (BitVec.ofNat 32 n)
    else if n < 2 ^ 32 then .error (.refused (.unsettledHexLiteral text))
    else .error (.error (.invalidNumericLiteral text))
  | none => .error (.error (.invalidNumericLiteral text))

/-! ### Instructions (R121) -/

/-- The operand lists of R121, each with the record it makes. -/
inductive OperandShape where
  | upper (make : Reg → Word → Instr)
  | jump (make : Reg → JumpTarget → Instr)
  | jumpRegister (make : Reg → Reg → Word → Instr)
  | branch (make : Reg → Reg → JumpTarget → Instr)
  | memory (make : Reg → Address → Instr)
  | immediate (make : Reg → Reg → Word → Instr)
  | register (make : Reg → Reg → Reg → Instr)

/-- R121. -/
def mnemonicsUpper : List (String × OperandShape) :=
  [ ("lui", .upper .lui), ("auipc", .upper .auipc) ]

/-- R121. -/
def mnemonicsJump : List (String × OperandShape) :=
  [ ("jal", .jump .jal), ("jalr", .jumpRegister .jalr) ]

/-- R121. -/
def mnemonicsBranch : List (String × OperandShape) :=
  [ ("beq", .branch .beq), ("bne", .branch .bne), ("blt", .branch .blt), ("bge", .branch .bge),
    ("bltu", .branch .bltu), ("bgeu", .branch .bgeu) ]

/-- R121. -/
def mnemonicsMemory : List (String × OperandShape) :=
  [ ("lb", .memory .lb), ("lh", .memory .lh), ("lw", .memory .lw), ("lbu", .memory .lbu),
    ("lhu", .memory .lhu), ("sb", .memory .sb), ("sh", .memory .sh), ("sw", .memory .sw) ]

/-- R121. -/
def mnemonicsImmediate : List (String × OperandShape) :=
  [ ("addi", .immediate .addi), ("slti", .immediate .slti), ("sltiu", .immediate .sltiu), ("xori", .immediate .xori),
    ("ori", .immediate .ori), ("andi", .immediate .andi), ("slli", .immediate .slli), ("srli", .immediate .srli),
    ("srai", .immediate .srai) ]

/-- R121. -/
def mnemonicsRegister : List (String × OperandShape) :=
  [ ("add", .register .add), ("sub", .register .sub), ("sll", .register .sll), ("slt", .register .slt),
    ("sltu", .register .sltu), ("xor", .register .xor), ("srl", .register .srl), ("sra", .register .sra),
    ("or", .register .or), ("and", .register .and) ]

/-- The mnemonics of R121 with the operands each takes. -/
def mnemonicTable : List (String × OperandShape) :=
  mnemonicsUpper ++ mnemonicsJump ++ mnemonicsBranch ++ mnemonicsMemory ++ mnemonicsImmediate ++ mnemonicsRegister

/-- R31, U20: a label name is not empty, and one that clashes with a register name or a mnemonic is refused. DESIGN
CHOICE: a label named `x0` … `x31` is refused too; U17 leaves open whether those are register names, so whether they
clash is open (log 35). -/
def constructLabelName (name : String) : Except LoadStop LabelName :=
  if h : name = "" then .error (.refused (.unsettledLabelName name))
  else if name ∈ numericRegisterNames ∨ (Table.lookup name registerNames).isSome ∨ (Table.lookup name mnemonicTable).isSome then
    .error (.refused (.unsettledLabelName name))
  else .ok ⟨name, h⟩

/-- R121: a target is a label name or a numeric literal; no other operand is one. -/
def constructTarget (mnemonic : String) : Operand → Except LoadStop JumpTarget
  | .name text => (constructLabelName text).map .label
  | .literal text => (constructSigned text).map .offset
  | .register _ => .error (.refused (.operandMismatch mnemonic))
  | .address _ _ => .error (.refused (.operandMismatch mnemonic))

/-- R121: the record of the operands. DESIGN CHOICE: where several operands fail, the leftmost is the one reported, and
operands of the wrong number or kind are reported before any is converted (log 36). -/
def constructOperands (mnemonic : String) : OperandShape → List Operand → Except LoadStop Instr
  | .upper make, [.register rd, .literal imm] => do
    let rd ← constructRegister rd
    let imm ← constructUnsigned imm
    .ok (make rd imm)
  | .jump make, [.register rd, target] => do
    let rd ← constructRegister rd
    let target ← constructTarget mnemonic target
    .ok (make rd target)
  | .jumpRegister make, [.register rd, .register base, .literal offset] => do
    let rd ← constructRegister rd
    let base ← constructRegister base
    let offset ← constructSigned offset
    .ok (make rd base offset)
  | .branch make, [.register rs1, .register rs2, target] => do
    let rs1 ← constructRegister rs1
    let rs2 ← constructRegister rs2
    let target ← constructTarget mnemonic target
    .ok (make rs1 rs2 target)
  | .memory make, [.register r, .address offset base] => do
    let r ← constructRegister r
    let offset ← constructSigned offset
    let base ← constructRegister base
    .ok (make r (Address.mk base offset))
  | .immediate make, [.register rd, .register rs1, .literal imm] => do
    let rd ← constructRegister rd
    let rs1 ← constructRegister rs1
    let imm ← constructSigned imm
    .ok (make rd rs1 imm)
  | .register make, [.register rd, .register rs1, .register rs2] => do
    let rd ← constructRegister rd
    let rs1 ← constructRegister rs1
    let rs2 ← constructRegister rs2
    .ok (make rd rs1 rs2)
  | _, _ => .error (.refused (.operandMismatch mnemonic))

/-- R121: the record of an instruction line; an unknown mnemonic is reported before its operands (log 36). -/
def constructInstr (mnemonic : String) (operands : List Operand) : Except LoadStop Instr :=
  match Table.lookup mnemonic mnemonicTable with
  | some shape => constructOperands mnemonic shape operands
  | none => .error (.refused (.unknownMnemonic mnemonic))

/-- The Program of the source lines; a line that stops rejects the whole (R240). DESIGN CHOICE: where several lines stop,
the first is the one reported (log 36). -/
def assemble : List SourceLine → Except LoadStop Program
  | [] => .ok []
  | .label name :: rest => do
    let name ← constructLabelName name
    let rest ← assemble rest
    .ok (.label name :: rest)
  | .instruction mnemonic operands :: rest => do
    let i ← constructInstr mnemonic operands
    let rest ← assemble rest
    .ok (.instruction i :: rest)

/-- R265 step (2) from the front end's lines. DESIGN CHOICE: a line that stops is reported before a program that is too
large (log 36). -/
def loadSource (lines : List SourceLine) : Except LoadStop State :=
  match assemble lines with
  | .error stop => .error stop
  | .ok p =>
    match loadProgram p with
    | .ok s => .ok s
    | .error e => .error (.error e)

end Sys2Proof.Machine
end

