-- ==== Sys2Proof/Machine/Driver.lean ====
section
/-! DEFINITION. The driver's side (70_reset_and_hazards.md R260, R265, R271, R272, R274): a run under a step budget, and
the session of reset, load and step requests. The driver reads `pc`, `State.readReg`, `State.dmemByte` and `State.slot`
between steps and has no operation that writes a running machine (log 24). -/

namespace Sys2Proof.Machine

/-- How a run ended (R274); `refused` stands for the model's own refusals, and no step answers one. -/
inductive RunEnd where
  | error (f : Fault)
  | refused (r : Refusal)
  | budgetExhausted
  deriving DecidableEq, Repr

/-- R274: at most `n` steps, to the first error; the last state and how the run ended. DESIGN CHOICE: a step that errs
counts against the budget, so a run whose `n` steps all succeed ends with its budget spent, also where the next step
would err; R274's words admit ending that run with the error (log 34). -/
def run : Nat → State → State × RunEnd
  | 0, s => (s, .budgetExhausted)
  | n + 1, s =>
    match step s with
    | .next t => run n t
    | .fault f => (s, .error f)
    | .refused r => (s, .refused r)

/-- Where the session stands (R265, R271): just reset, loaded, or without a machine after a load that failed (R240). -/
inductive Phase where
  | fresh
  | loaded
  | noMachine
  deriving DecidableEq, Repr

/-- What the driver holds: the phase and the architectural state it owns. -/
structure Session where
  phase : Phase
  state : State
  deriving DecidableEq, Repr

/-- The input ports of R271. -/
inductive Request where
  | reset
  | load (p : Program)
  | loadImage (ws : List Word)
  | step
  deriving DecidableEq, Repr

/-- The output of a request: `outcome` of R271 for a step; a load's error (R240); or that the request is not allowed. -/
inductive Answer where
  | ok
  | error (f : Fault)
  | loadError (e : LoadError)
  | refused (r : Refusal)
  | notAllowed
  deriving DecidableEq, Repr

/-- A load's result put into the session: on an error no machine exists (R240, R265). -/
def Session.finishLoad : Except LoadError State → Session × Answer
  | .ok s => ({ phase := .loaded, state := s }, .ok)
  | .error e => ({ phase := .noMachine, state := State.reset }, .loadError e)

/-- A step's outcome put into the session: after an error the state is the state before the step (R233, R238). -/
def Session.finishStep (q : Session) : StepOutcome → Session × Answer
  | .next t => ({ q with state := t }, .ok)
  | .fault f => (q, .error f)
  | .refused r => (q, .refused r)

/-- One request (R271, R272): a load only directly after reset, a step only once loaded (R265). -/
def Session.request (q : Session) : Request → Session × Answer
  | .reset => ({ phase := .fresh, state := State.reset }, .ok)
  | .load p => if q.phase = .fresh then Session.finishLoad (loadProgram p) else (q, .notAllowed)
  | .loadImage ws => if q.phase = .fresh then Session.finishLoad (Sys2Proof.Machine.loadImage ws) else (q, .notAllowed)
  | .step => if q.phase = .loaded then q.finishStep (Sys2Proof.Machine.step q.state) else (q, .notAllowed)

end Sys2Proof.Machine
end

