-- ==== Sys2Proof/Safety.lean ====
section
/-! DEFINITION. The terms the statements use: the canonical form of a state, what a step may change (10_state.md R24,
20_memory.md R61), what an instruction reads and writes (R24), and when two states hold the same machine (R28). Each
is written from the spec's words over reads of the state, not over the operations that execute instructions. -/

namespace Sys2Proof.Machine

/-! ### Canonical form (log 32) -/

/-- Keys strictly rising. -/
abbrev Table.Rising {κ α : Type} [LT κ] (l : List (κ × α)) : Prop := l.Pairwise (fun a b => a.1 < b.1)

/-- Data memory: indices rising and inside the memory (R30), no byte an unlisted index reads as. -/
abbrev Memory.wf (m : List Host.Cell) : Prop :=
  Table.Rising m ∧ ∀ c ∈ m, c.1 < dmemBytes ∧ c.2 ≠ Config.reference.initDmem

/-- Instruction memory: slots rising and inside the memory (R28), none held as an unlisted slot reads. -/
abbrev InstructionMemory.wf (m : List (Nat × SlotHold)) : Prop :=
  Table.Rising m ∧ ∀ c ∈ m, c.1 < imemSlots ∧ c.2 ≠ resetSlot

/-- Label table: one entry a name (R31); that names are not empty is in their type. -/
abbrev LabelTable.wf (m : List (LabelName × Word)) : Prop := Table.Rising m

/-- The three lists of a state are in canonical form, so that equal memories are equal data. -/
abbrev State.wf (s : State) : Prop := Memory.wf s.dmem ∧ InstructionMemory.wf s.imem ∧ LabelTable.wf s.labels

/-! ### Effects of a step -/

/-- Data memory, instruction memory and label table read as before. -/
def SameMemories (s t : State) : Prop :=
  (∀ k, t.dmemByte k = s.dmemByte k) ∧ t.imem = s.imem ∧ t.labels = s.labels

/-- `x[rd] <- v`, `pc <- next`, and nothing else: register 0 reads 0 whatever `rd` is (R21, R22). -/
def WritesRegister (s t : State) (rd : Reg) (v next : Word) : Prop :=
  t.pc = next ∧ (∀ i, t.readReg i = if i = 0#5 then 0#32 else if i = rd then v else s.readReg i) ∧ SameMemories s t

/-- `pc <- next`, and nothing else. -/
def WritesPc (s t : State) (next : Word) : Prop :=
  t.pc = next ∧ (∀ i, t.readReg i = s.readReg i) ∧ SameMemories s t

/-- The data byte that byte `i` of an access at address `a` is (R55, R59). -/
def accessedIndex (a : Word) (i : Nat) : Nat := (a.toNat % dmemBytes + i) % dmemBytes

/-- The low `n` bytes of `v` stored at address `a`, least significant first, `pc <- pc +32 4`, and nothing else. -/
def StoresBytes (s t : State) (a : Word) (n : Nat) (v : Word) : Prop :=
  t.pc = s.pc + 4#32 ∧ (∀ i, t.readReg i = s.readReg i) ∧ t.imem = s.imem ∧ t.labels = s.labels ∧
  (∀ i, i < n → t.dmemByte (accessedIndex a i) = v.extractLsb' (8 * i) 8) ∧
  (∀ k, (∀ i, i < n → k ≠ accessedIndex a i) → t.dmemByte k = s.dmemByte k)

/-- The address of a load or store (R91): base register plus offset, wrapping. -/
def addressOf (s : State) (address : Address) : Word := s.readReg address.base + address.offset

/-- The value of the `n` bytes at address `a`, the lowest address the least significant (R58). -/
def littleEndian (s : State) (a : Word) : Nat → Nat
  | 0 => 0
  | n + 1 => littleEndian s a n + (s.dmemByte (accessedIndex a n)).toNat * 2 ^ (8 * n)

/-- The two's-complement reading of a number of `bits` bits (R9, R10). -/
def signedValue (bits n : Nat) : Int := if n < 2 ^ (bits - 1) then (n : Int) else (n : Int) - 2 ^ bits

/-- Every word of an opcode-table row decodes to the record built from its fields (R103). -/
def WordsDecodeTo (mask pattern : Word) (record : Word → Instr) : Prop :=
  ∀ w : Word, w &&& mask = pattern → decode w = .ok (record w)

/-- The instruction completes: it writes a value that has the property into `rd`, advances the pc by 4, and changes
nothing else. -/
def Computes (i : Instr) (s : State) (rd : Reg) (value : Word → Prop) : Prop :=
  ∃ t v, exec i s = .next t ∧ value v ∧ WritesRegister s t rd v (s.pc + 4#32)

/-- A branch (R150) with a target that resolves: to it where `taken`, else to the next instruction; an unbound label
is an error where `taken`. -/
def BranchesWhen (taken : Prop) (i : Instr) (target : JumpTarget) (s : State) : Prop :=
  (∀ a, s.resolve target = .ok a → taken → ∃ t, exec i s = .next t ∧ WritesPc s t a) ∧
  (∀ a, s.resolve target = .ok a → ¬ taken → ∃ t, exec i s = .next t ∧ WritesPc s t (s.pc + 4#32)) ∧
  (∀ name, target = .label name → s.labelAddress name = none → taken → exec i s = .fault (.unknownLabel name))

end Sys2Proof.Machine

namespace Sys2Proof

/-! ### Readers and writers (R24) -/

/-- The register an instruction writes, by family (R24). -/
def Instr.destination : Instr → Option Reg
  | .lui rd _ => some rd
  | .auipc rd _ => some rd
  | .jal rd _ => some rd
  | .jalr rd _ _ => some rd
  | .beq _ _ _ => none
  | .bne _ _ _ => none
  | .blt _ _ _ => none
  | .bge _ _ _ => none
  | .bltu _ _ _ => none
  | .bgeu _ _ _ => none
  | .lb rd _ => some rd
  | .lh rd _ => some rd
  | .lw rd _ => some rd
  | .lbu rd _ => some rd
  | .lhu rd _ => some rd
  | .sb _ _ => none
  | .sh _ _ => none
  | .sw _ _ => none
  | .addi rd _ _ => some rd
  | .slti rd _ _ => some rd
  | .sltiu rd _ _ => some rd
  | .xori rd _ _ => some rd
  | .ori rd _ _ => some rd
  | .andi rd _ _ => some rd
  | .slli rd _ _ => some rd
  | .srli rd _ _ => some rd
  | .srai rd _ _ => some rd
  | .add rd _ _ => some rd
  | .sub rd _ _ => some rd
  | .sll rd _ _ => some rd
  | .slt rd _ _ => some rd
  | .sltu rd _ _ => some rd
  | .xor rd _ _ => some rd
  | .srl rd _ _ => some rd
  | .sra rd _ _ => some rd
  | .or rd _ _ => some rd
  | .and rd _ _ => some rd

/-- The registers an instruction reads, by family (R24). -/
def Instr.sources : Instr → List Reg
  | .lui _ _ => []
  | .auipc _ _ => []
  | .jal _ _ => []
  | .jalr _ base _ => [base]
  | .beq rs1 rs2 _ => [rs1, rs2]
  | .bne rs1 rs2 _ => [rs1, rs2]
  | .blt rs1 rs2 _ => [rs1, rs2]
  | .bge rs1 rs2 _ => [rs1, rs2]
  | .bltu rs1 rs2 _ => [rs1, rs2]
  | .bgeu rs1 rs2 _ => [rs1, rs2]
  | .lb _ address => [address.base]
  | .lh _ address => [address.base]
  | .lw _ address => [address.base]
  | .lbu _ address => [address.base]
  | .lhu _ address => [address.base]
  | .sb rs address => [address.base, rs]
  | .sh rs address => [address.base, rs]
  | .sw rs address => [address.base, rs]
  | .addi _ rs1 _ => [rs1]
  | .slti _ rs1 _ => [rs1]
  | .sltiu _ rs1 _ => [rs1]
  | .xori _ rs1 _ => [rs1]
  | .ori _ rs1 _ => [rs1]
  | .andi _ rs1 _ => [rs1]
  | .slli _ rs1 _ => [rs1]
  | .srli _ rs1 _ => [rs1]
  | .srai _ rs1 _ => [rs1]
  | .add _ rs1 rs2 => [rs1, rs2]
  | .sub _ rs1 rs2 => [rs1, rs2]
  | .sll _ rs1 rs2 => [rs1, rs2]
  | .slt _ rs1 rs2 => [rs1, rs2]
  | .sltu _ rs1 rs2 => [rs1, rs2]
  | .xor _ rs1 rs2 => [rs1, rs2]
  | .srl _ rs1 rs2 => [rs1, rs2]
  | .sra _ rs1 rs2 => [rs1, rs2]
  | .or _ rs1 rs2 => [rs1, rs2]
  | .and _ rs1 rs2 => [rs1, rs2]

/-- The three stores (R2). -/
def Instr.isStore : Instr → Bool
  | .sb _ _ => true
  | .sh _ _ => true
  | .sw _ _ => true
  | _ => false

/-- The target a jump or branch with a JumpTarget operand names (R92). -/
def Instr.target? : Instr → Option JumpTarget
  | .jal _ target => some target
  | .beq _ _ target => some target
  | .bne _ _ target => some target
  | .blt _ _ target => some target
  | .bge _ _ target => some target
  | .bltu _ _ target => some target
  | .bgeu _ _ target => some target
  | _ => none

/-- The instruction transfers control to its target when executed in `s`: JAL always, a branch when its condition
holds (R140, R150). -/
def Instr.takesTarget (s : Machine.State) : Instr → Prop
  | .jal _ _ => True
  | .beq rs1 rs2 _ => s.readReg rs1 = s.readReg rs2
  | .bne rs1 rs2 _ => s.readReg rs1 ≠ s.readReg rs2
  | .blt rs1 rs2 _ => (s.readReg rs1).toInt < (s.readReg rs2).toInt
  | .bge rs1 rs2 _ => (s.readReg rs2).toInt ≤ (s.readReg rs1).toInt
  | .bltu rs1 rs2 _ => (s.readReg rs1).toNat < (s.readReg rs2).toNat
  | .bgeu rs1 rs2 _ => (s.readReg rs2).toNat ≤ (s.readReg rs1).toNat
  | _ => False

end Sys2Proof

namespace Sys2Proof.Machine

/-! ### Relations between states -/

/-- Two outcomes of one instruction that cannot be told apart by what it writes: the same error, or next states with
the same pc, the same data bytes and the same value in the destination register. -/
def SameResult (i : Instr) (a b : StepOutcome) : Prop :=
  match a, b with
  | .next s, .next t =>
    s.pc = t.pc ∧ (∀ k, s.dmemByte k = t.dmemByte k) ∧ (∀ rd, i.destination = some rd → s.readReg rd = t.readReg rd)
  | .fault f, .fault g => f = g
  | .refused q, .refused r => q = r
  | _, _ => False

/-- The same machine but for how its slots are held: every slot has the same content (R28, R103). -/
def SameContents (s t : State) : Prop :=
  s.pc = t.pc ∧ s.regs = t.regs ∧ s.dmem = t.dmem ∧ s.labels = t.labels ∧ ∀ k, s.slot k = t.slot k

/-- The outcomes of two steps agree up to how slots are held. -/
def OutcomesAgree (a b : StepOutcome) : Prop :=
  match a, b with
  | .next s, .next t => SameContents s t
  | .fault f, .fault g => f = g
  | .refused q, .refused r => q = r
  | _, _ => False

/-- Every slot is held as a word: a machine loaded from a word-level image (R275). -/
def State.holdsWords (s : State) : Prop := ∀ k, ∃ w, s.slotHold k = .word w

/-- The instructions of a program, in order (R266). -/
def instructionsOf : Program → List Instr
  | [] => []
  | .instruction i :: rest => i :: instructionsOf rest
  | .label _ :: rest => instructionsOf rest

end Sys2Proof.Machine
end

