-- ==== Sys2Proof/Certificates/Slice0/Obligations.lean ====
section
/-! DEFINITION. The statements for the provers. Each says in its docstring what it formalises; OBLIGATIONS.json holds the
rules cited and the sentences quoted. A state is any state, reached or not. -/

open Sys2Proof Sys2Proof.Machine

/-- After reset everything reads 0 or Empty (the spec's own defaults D11 to D13, log 3, 4, 5, 7). Rests on 10_state.md
section 6; 70_reset_and_hazards.md section 1; 92_eei_decisions.md D4, D11, D12, D13. -/
def Obligations.ResetLeavesZeroes : Prop :=
  State.reset.pc = 0#32 ∧ (∀ i, State.reset.readReg i = 0#32) ∧ (∀ k, State.reset.slot k = .empty) ∧
    (∀ k, State.reset.dmemByte k = 0#8) ∧ ∀ n, State.reset.labelAddress n = none

/-- Register 0 always reads 0; any other register reads the pattern last written to it, or its reset value. Follows R21. -/
def Obligations.RegistersReadWhatWasWritten : Prop :=
  ∀ (s : State) (i j : Reg) (v : Word),
    s.readReg 0#5 = 0#32 ∧ s.writeReg 0#5 v = s ∧
    (i ≠ 0#5 → (s.writeReg i v).readReg i = v) ∧
    (j ≠ i → (s.writeReg i v).readReg j = s.readReg j) ∧
    (i ≠ 0#5 → State.reset.readReg i = Config.reference.initReg)

/-- A step is exec of the record in the slot the pc selects, held as a record or as a word that decodes to it. Rests on
20_memory.md section 1; 30_encoding.md Part 2; 60_exceptions.md section 1. -/
def Obligations.StepRunsTheFetchedInstruction : Prop :=
  ∀ (s : State) (i : Instr),
    (s.slotHold (s.pc.toNat % imemBytes / 4) = .record i → step s = exec i s) ∧
    (∀ w, s.slotHold (s.pc.toNat % imemBytes / 4) = .word w → decode w = .ok i → i.wellFormed = true ∧ step s = exec i s)

/-- A step raises InvalidOpcode exactly when the fetched slot is Empty (the spec's policy D4, log 7). Rests on
60_exceptions.md section 1; 92_eei_decisions.md D4, D14. -/
def Obligations.EmptySlotRaisesInvalidOpcode : Prop :=
  ∀ s : State, step s = .fault .invalidOpcode ↔ s.slot (s.pc.toNat % imemBytes / 4) = .empty

/-- A step ends in a next state, UnknownLabel or InvalidOpcode, and an error leaves the state unchanged. Follows R16. -/
def Obligations.StepHasThreeOutcomes : Prop :=
  ∀ s : State,
    ((∃ t, step s = .next t) ∨ (∃ n, step s = .fault (.unknownLabel n)) ∨ step s = .fault .invalidOpcode) ∧
    ∀ f, step s = .fault f → run 1 s = (s, .error f)

/-- UnknownLabel is raised exactly by JAL and taken branches whose Label target has no entry (branches: D15, log 12).
Rests on 60_exceptions.md section 1; 41_jumps.md; 42_branches.md; 92_eei_decisions.md D14, D15. -/
def Obligations.UnknownLabelOnlyFromTakenUnboundLabels : Prop :=
  (∀ (s : State) (name : LabelName), step s = .fault (.unknownLabel name) ↔
    ∃ i, s.fetch = .instr i ∧ i.target? = some (.label name) ∧ i.takesTarget s ∧ s.labelAddress name = none) ∧
  (∀ (s : State) (w : Word) (name : LabelName), s.slotHold (s.pc.toNat % imemBytes / 4) = .word w →
    step s ≠ .fault (.unknownLabel name)) ∧
  ∀ (p : Program) (s : State) (name : LabelName), loadProgram p = .ok s → ProgramLine.label name ∈ p →
    s.labelAddress name ≠ none

/-- The state after reset is in canonical form (the form is the model's own, log 32). Rests on 10_state.md sections 1, 4
and 6. -/
def Obligations.ResetIsCanonical : Prop :=
  State.reset.wf

/-- Every step keeps the canonical form of both memories and the label table (the form is the model's own, log 32).
Rests on 10_state.md sections 1 and 4; 20_memory.md sections 1 and 3. -/
def Obligations.StepKeepsCanonicalForm : Prop :=
  ∀ s t : State, s.wf → step s = .next t → t.wf

/-- No step changes the instruction memory or the label table. Rests on 10_state.md section 4; 20_memory.md section 4;
92_eei_decisions.md D31. -/
def Obligations.StepNeverWritesInstructionMemoryOrLabels : Prop :=
  ∀ s t : State, step s = .next t → t.imem = s.imem ∧ t.labels = s.labels

/-- A step that changes a data byte executes SB, SH or SW. Rests on 10_state.md section 1; 43_loads.md; 44_stores.md. -/
def Obligations.OnlyStoresChangeDataMemory : Prop :=
  ∀ (s t : State) (k : Nat), step s = .next t → t.dmemByte k ≠ s.dmemByte k →
    ∃ i, s.fetch = .instr i ∧ i.isStore = true

/-- An instruction writes only its family's destination register and depends only on its source registers' old values
(D16, log 11). Rests on 10_state.md section 2; 92_eei_decisions.md D16. -/
def Obligations.RegistersReadAndWrittenByFamily : Prop :=
  (∀ (i : Instr) (s t : State) (r : Reg), exec i s = .next t → i.destination ≠ some r → t.readReg r = s.readReg r) ∧
  ∀ (i : Instr) (s t : State), s.pc = t.pc → (∀ k, s.dmemByte k = t.dmemByte k) → s.labels = t.labels →
    (∀ r ∈ i.sources, s.readReg r = t.readReg r) → SameResult i (exec i s) (exec i t)

/-- Executing an instruction neither reads nor writes the instruction memory. Rests on 20_memory.md section 1. -/
def Obligations.InstructionsCannotSeeInstructionMemory : Prop :=
  ∀ (i : Instr) (s : State) (m : List (Nat × SlotHold)),
    exec i { s with imem := m } =
      match exec i s with
      | .next t => .next { t with imem := m }
      | .fault f => .fault f
      | .refused r => .refused r

/-- In a machine loaded from words the pc stays even. Rests on 30_encoding.md Part 2; 41_jumps.md; 42_branches.md;
10_state.md section 3. -/
def Obligations.WordLevelPcStaysEven : Prop :=
  ∀ s t : State, s.holdsWords → s.pc.toNat % 2 = 0 → step s = .next t → t.holdsWords ∧ t.pc.toNat % 2 = 0

/-- Two machines whose slots have the same contents step alike, whether slots are held as words or as records. Rests on
10_state.md section 4; 30_encoding.md Part 2; 92_eei_decisions.md D1. -/
def Obligations.WordsAndRecordsStepAlike : Prop :=
  ∀ s t : State, SameContents s t → OutcomesAgree (step s) (step t)

/-- A bound Label-form target equals the Offset T - a exactly when executed at pc = a; elsewhere they part by the pc's
difference. Rests on 30_encoding.md Part 2 (Label-form record and Offset-form counterpart); 41_jumps.md. -/
def Obligations.LabelAndOffsetFormsAgreeAtThePlacedAddress : Prop :=
  ∀ (s : State) (name : LabelName) (T a d : Word) (rd rs1 rs2 : Reg), s.labelAddress name = some T →
    (s.pc = a →
      exec (.jal rd (.label name)) s = exec (.jal rd (.offset (T - a))) s ∧
      exec (.beq rs1 rs2 (.label name)) s = exec (.beq rs1 rs2 (.offset (T - a))) s ∧
      exec (.bne rs1 rs2 (.label name)) s = exec (.bne rs1 rs2 (.offset (T - a))) s ∧
      exec (.blt rs1 rs2 (.label name)) s = exec (.blt rs1 rs2 (.offset (T - a))) s ∧
      exec (.bge rs1 rs2 (.label name)) s = exec (.bge rs1 rs2 (.offset (T - a))) s ∧
      exec (.bltu rs1 rs2 (.label name)) s = exec (.bltu rs1 rs2 (.offset (T - a))) s ∧
      exec (.bgeu rs1 rs2 (.label name)) s = exec (.bgeu rs1 rs2 (.offset (T - a))) s) ∧
    (s.pc = a + d → s.resolve (.label name) = .ok T ∧ s.resolve (.offset (T - a)) = .ok (T + d))

/-- Data address translation masks the address; addresses that differ by a multiple of DMEM_BYTES name the same byte.
Follows R55. -/
def Obligations.DataAddressesWrapByMask : Prop :=
  ∀ a b : Word,
    dTrans a = a.toNat &&& (dmemBytes - 1) ∧ dTrans a = a.toNat % dmemBytes ∧ dTrans a < dmemBytes ∧
    (a.toNat % dmemBytes = b.toNat % dmemBytes → dTrans a = dTrans b) ∧
    dTrans 0x00000000#32 = 0 ∧ dTrans 0x00004000#32 = 0 ∧ dTrans 0xFFFFC000#32 = 0

/-- Fetch uses the pc modulo IMEM_BYTES, divided by 4 with truncation; no pc is refused. Rests on 20_memory.md section
1; 10_state.md section 3; 92_eei_decisions.md D17. -/
def Obligations.InstructionAddressesSelectSlots : Prop :=
  ∀ (s : State) (a b : Word),
    iTrans a = a.toNat % imemBytes / 4 ∧ iTrans a < imemSlots ∧
    (a.toNat % imemBytes / 4 = b.toNat % imemBytes / 4 → s.fetchAt a = s.fetchAt b)

/-- DmemLoad takes window byte i where its enable bit is set, else 0 (window unaligned and wrapping: log 9, 10). Rests
on 20_memory.md section 3; 92_eei_decisions.md D7, D8, D9. -/
def Obligations.ByteEnabledLoadZeroesDisabledBytes : Prop :=
  ∀ (s : State) (a : Word) (be : BitVec 4) (i : Nat), i < 4 →
    (s.dmemLoad a be).extractLsb' (8 * i) 8 = if be.getLsbD i then s.dmemByte (accessedIndex a i) else 0#8

/-- DmemStore writes exactly the enabled window bytes (asserted = written: the spec's decision D6, log 8). Rests on
20_memory.md section 3; 92_eei_decisions.md D6, D7, D8, D9. -/
def Obligations.ByteEnabledStoreWritesEnabledBytes : Prop :=
  ∀ (s : State) (a : Word) (be : BitVec 4) (v : Word),
    (∀ i, i < 4 → be.getLsbD i = true →
      (s.dmemStore a be v).dmemByte (accessedIndex a i) = v.extractLsb' (8 * i) 8) ∧
    (∀ k, (∀ i, i < 4 → be.getLsbD i = true → k ≠ accessedIndex a i) →
      (s.dmemStore a be v).dmemByte k = s.dmemByte k) ∧
    (s.dmemStore a be v).pc = s.pc ∧ (∀ r, (s.dmemStore a be v).readReg r = s.readReg r) ∧
    (s.dmemStore a be v).imem = s.imem ∧ (s.dmemStore a be v).labels = s.labels

/-- MemRead(a, n) is the little-endian value of the n bytes that start at the translated address. Rests on 20_memory.md
sections 2 and 3; 92_eei_decisions.md D8, D9. -/
def Obligations.MemReadIsLittleEndian : Prop :=
  ∀ (s : State) (a : Word) (n : AccessSize), (s.memRead a n).toNat = littleEndian s a n.bytes

/-- A read of any size after a write of any size gives each byte written last and keeps the others (D6 to D9, log 8 to
10). Rests on 20_memory.md section 3; 92_eei_decisions.md D6, D7, D8, D9. -/
def Obligations.StoreThenLoadReturnsTheStoredBytes : Prop :=
  ∀ (s : State) (a b v : Word) (m n : AccessSize),
    (∀ j k, j < m.bytes → k < n.bytes → accessedIndex b k = accessedIndex a j →
      ((s.memWrite a m v).memRead b n).extractLsb' (8 * k) 8 = v.extractLsb' (8 * j) 8) ∧
    (∀ k, k < n.bytes → (∀ j, j < m.bytes → accessedIndex b k ≠ accessedIndex a j) →
      ((s.memWrite a m v).memRead b n).extractLsb' (8 * k) 8 = s.dmemByte (accessedIndex b k)) ∧
    (∀ k, k < n.bytes → ((s.memWrite a m v).memRead a n).extractLsb' (8 * k) 8 =
      if k < m.bytes then v.extractLsb' (8 * k) 8 else s.dmemByte (accessedIndex a k)) ∧
    ((s.memWrite a m v).memRead b n).toNat < 2 ^ (8 * n.bytes) ∧
    ((s.memWrite a n v).memRead a n).toNat = v.toNat % 2 ^ (8 * n.bytes) ∧
    ∀ i, i < 4 → ((s.memWrite a .four v).memRead (a + BitVec.ofNat 32 i) .one).toNat = v.toNat / 2 ^ (8 * i) % 256

/-- LoadExtend sign- or zero-extends the low 8 or 16 bits, or passes the word. Rests on 20_memory.md section 3;
00_scope.md section 5. -/
def Obligations.LoadExtendByWidth : Prop :=
  ∀ raw : Word,
    (loadExtend .byte raw).toInt = signedValue 8 (raw.toNat % 2 ^ 8) ∧
    (loadExtend .half raw).toInt = signedValue 16 (raw.toNat % 2 ^ 16) ∧
    loadExtend .word raw = raw ∧
    (loadExtend .byteUnsigned raw).toNat = raw.toNat % 2 ^ 8 ∧
    (loadExtend .halfUnsigned raw).toNat = raw.toNat % 2 ^ 16

/-- LUI writes imm[19:0] shifted left by 12 and changes nothing else but the pc. Follows R130. -/
def Obligations.LuiLoadsTheShiftedImmediate : Prop :=
  WordsDecodeTo 0x0000007F#32 0x00000037#32 (fun w => .lui (fieldRd w) (immU w)) ∧
  ∀ (rd : Reg) (imm : Word) (s : State),
    Computes (.lui rd imm) s rd (fun v => v.toNat = imm.toNat % 2 ^ 20 * 2 ^ 12)

/-- AUIPC writes pc + (imm[19:0] << 12), wrapping (D27), and changes nothing else but the pc. Rests on
40_upper_immediate.md; 92_eei_decisions.md D10, D27. -/
def Obligations.AuipcAddsTheShiftedImmediateToThePc : Prop :=
  WordsDecodeTo 0x0000007F#32 0x00000017#32 (fun w => .auipc (fieldRd w) (immU w)) ∧
  ∀ (rd : Reg) (imm : Word) (s : State),
    Computes (.auipc rd imm) s rd (fun v => v.toNat = (s.pc.toNat + imm.toNat % 2 ^ 20 * 2 ^ 12) % 2 ^ 32)

/-- JAL writes pc + 4 to rd and goes to its target; an unbound label is UnknownLabel with nothing written (D36, log 13).
Rests on 41_jumps.md; 92_eei_decisions.md D14, D36. -/
def Obligations.JalLinksAndJumps : Prop :=
  WordsDecodeTo 0x0000007F#32 0x0000006F#32 (fun w => .jal (fieldRd w) (.offset (immJ w))) ∧
  ∀ (rd : Reg) (s : State),
    (∀ off : Word, ∃ t, exec (.jal rd (.offset off)) s = .next t ∧
      WritesRegister s t rd (s.pc + 4#32) (s.pc + off)) ∧
    (∀ (name : LabelName) (a : Word), s.labelAddress name = some a → ∃ t, exec (.jal rd (.label name)) s = .next t ∧
      WritesRegister s t rd (s.pc + 4#32) a) ∧
    (∀ name : LabelName, s.labelAddress name = none → exec (.jal rd (.label name)) s = .fault (.unknownLabel name)) ∧
    (∀ name : LabelName, s.labelAddress name = none → s.fetch = .instr (.jal rd (.label name)) →
      run 1 s = (s, .error (.unknownLabel name)))

/-- JALR goes to x[base] + offset with bit 0 cleared and writes pc + 4 to rd, also where rd = base (old value: D16, log
11). Rests on 41_jumps.md; 10_state.md section 2; 92_eei_decisions.md D16. -/
def Obligations.JalrLinksAndJumpsToTheEvenSum : Prop :=
  WordsDecodeTo 0x0000707F#32 0x00000067#32 (fun w => .jalr (fieldRd w) (fieldRs1 w) (immI w)) ∧
  ∀ (rd base : Reg) (offset : Word) (s : State), ∃ t a, exec (.jalr rd base offset) s = .next t ∧
    a.toNat = ((s.readReg base).toNat + offset.toNat) % 2 ^ 32 / 2 * 2 ∧ WritesRegister s t rd (s.pc + 4#32) a

/-- A Label resolves to its bound address or raises UnknownLabel; an Offset is added unscaled to the pc, wrapping. Rests
on 41_jumps.md (target resolution); 30_encoding.md Part 1. -/
def Obligations.TargetsResolveByTableOrByOffset : Prop :=
  ∀ (s : State) (name : LabelName) (a off : Word),
    (s.labelAddress name = some a → s.resolve (.label name) = .ok a) ∧
    (s.labelAddress name = none → s.resolve (.label name) = .error (.unknownLabel name)) ∧
    ∃ t : Word, s.resolve (.offset off) = .ok t ∧ t.toNat = (s.pc.toNat + off.toNat) % 2 ^ 32

/-- BEQ is taken iff x[rs1] = x[rs2], BNE iff not. Follows R151, R152. What a branch that is not taken does where its
label is unbound is the spec's decision D15: UntakenBranchesIgnoreUnboundLabels. -/
def Obligations.EqualityBranchesGoToTheTargetWhenTaken : Prop :=
  WordsDecodeTo 0x0000707F#32 0x00000063#32
    (fun w => .beq (fieldRs1 w) (fieldRs2 w) (.offset (immB w))) ∧
  WordsDecodeTo 0x0000707F#32 0x00001063#32
    (fun w => .bne (fieldRs1 w) (fieldRs2 w) (.offset (immB w))) ∧
  ∀ (rs1 rs2 : Reg) (target : JumpTarget) (s : State),
    BranchesWhen (s.readReg rs1 = s.readReg rs2) (.beq rs1 rs2 target) target s ∧
    BranchesWhen (s.readReg rs1 ≠ s.readReg rs2) (.bne rs1 rs2 target) target s

/-- BLT is taken iff s(x[rs1]) < s(x[rs2]), BGE iff s(x[rs1]) >= s(x[rs2]). Follows R153, R154. What a branch that is
not taken does where its label is unbound is the spec's decision D15: UntakenBranchesIgnoreUnboundLabels. -/
def Obligations.SignedBranchesGoToTheTargetWhenTaken : Prop :=
  WordsDecodeTo 0x0000707F#32 0x00004063#32
    (fun w => .blt (fieldRs1 w) (fieldRs2 w) (.offset (immB w))) ∧
  WordsDecodeTo 0x0000707F#32 0x00005063#32
    (fun w => .bge (fieldRs1 w) (fieldRs2 w) (.offset (immB w))) ∧
  ∀ (rs1 rs2 : Reg) (target : JumpTarget) (s : State),
    BranchesWhen ((s.readReg rs1).toInt < (s.readReg rs2).toInt) (.blt rs1 rs2 target) target s ∧
    BranchesWhen ((s.readReg rs2).toInt ≤ (s.readReg rs1).toInt) (.bge rs1 rs2 target) target s

/-- BLTU is taken iff u(x[rs1]) < u(x[rs2]), BGEU iff u(x[rs1]) >= u(x[rs2]). Follows R155, R156. What a branch that is
not taken does where its label is unbound is the spec's decision D15: UntakenBranchesIgnoreUnboundLabels. -/
def Obligations.UnsignedBranchesGoToTheTargetWhenTaken : Prop :=
  WordsDecodeTo 0x0000707F#32 0x00006063#32
    (fun w => .bltu (fieldRs1 w) (fieldRs2 w) (.offset (immB w))) ∧
  WordsDecodeTo 0x0000707F#32 0x00007063#32
    (fun w => .bgeu (fieldRs1 w) (fieldRs2 w) (.offset (immB w))) ∧
  ∀ (rs1 rs2 : Reg) (target : JumpTarget) (s : State),
    BranchesWhen ((s.readReg rs1).toNat < (s.readReg rs2).toNat) (.bltu rs1 rs2 target) target s ∧
    BranchesWhen ((s.readReg rs2).toNat ≤ (s.readReg rs1).toNat) (.bgeu rs1 rs2 target) target s

/-- A branch that is not taken goes on to pc + 4 even where its label is unbound (the spec's decision D15, log 12).
Rests on 42_branches.md; 92_eei_decisions.md D15. -/
def Obligations.UntakenBranchesIgnoreUnboundLabels : Prop :=
  ∀ (i : Instr) (target : JumpTarget) (s : State), i.target? = some target → ¬ i.takesTarget s →
    ∃ t, exec i s = .next t ∧ WritesPc s t (s.pc + 4#32)

/-- LB and LBU write the sign- and the zero-extended byte at x[base] + offset. Follows R161, R164. -/
def Obligations.ByteLoadsExtendTheByte : Prop :=
  WordsDecodeTo 0x0000707F#32 0x00000003#32
    (fun w => .lb (fieldRd w) (Address.mk (fieldRs1 w) (immI w))) ∧
  WordsDecodeTo 0x0000707F#32 0x00004003#32
    (fun w => .lbu (fieldRd w) (Address.mk (fieldRs1 w) (immI w))) ∧
  ∀ (rd : Reg) (address : Address) (s : State),
    Computes (.lb rd address) s rd (fun v => v.toInt = signedValue 8 (littleEndian s (addressOf s address) 1)) ∧
    Computes (.lbu rd address) s rd (fun v => v.toNat = littleEndian s (addressOf s address) 1)

/-- LH and LHU write the sign- and the zero-extended half at x[base] + offset, at any alignment (D8, D9, log 9, 10).
Rests on 43_loads.md; 20_memory.md section 3; 92_eei_decisions.md D8, D9. -/
def Obligations.HalfLoadsExtendTheHalf : Prop :=
  WordsDecodeTo 0x0000707F#32 0x00001003#32
    (fun w => .lh (fieldRd w) (Address.mk (fieldRs1 w) (immI w))) ∧
  WordsDecodeTo 0x0000707F#32 0x00005003#32
    (fun w => .lhu (fieldRd w) (Address.mk (fieldRs1 w) (immI w))) ∧
  ∀ (rd : Reg) (address : Address) (s : State),
    Computes (.lh rd address) s rd (fun v => v.toInt = signedValue 16 (littleEndian s (addressOf s address) 2)) ∧
    Computes (.lhu rd address) s rd (fun v => v.toNat = littleEndian s (addressOf s address) 2)

/-- LW writes the four bytes at x[base] + offset, at any alignment (D8, D9, log 9, 10). Rests on 43_loads.md;
20_memory.md section 3; 92_eei_decisions.md D8, D9. -/
def Obligations.WordLoadPassesTheFourBytes : Prop :=
  WordsDecodeTo 0x0000707F#32 0x00002003#32
    (fun w => .lw (fieldRd w) (Address.mk (fieldRs1 w) (immI w))) ∧
  ∀ (rd : Reg) (address : Address) (s : State),
    Computes (.lw rd address) s rd (fun v => v.toNat = littleEndian s (addressOf s address) 4)

/-- SB stores the low byte of x[rs] at x[base] + offset and nothing else. Follows R171. -/
def Obligations.ByteStoreWritesOneByte : Prop :=
  WordsDecodeTo 0x0000707F#32 0x00000023#32
    (fun w => .sb (fieldRs2 w) (Address.mk (fieldRs1 w) (immS w))) ∧
  ∀ (rs : Reg) (address : Address) (s : State), ∃ t, exec (.sb rs address) s = .next t ∧
    StoresBytes s t (addressOf s address) 1 (s.readReg rs)

/-- SH stores the low two bytes of x[rs] at x[base] + offset and nothing else (D6, D8, D9, log 8 to 10). Rests on
44_stores.md; 20_memory.md section 3; 92_eei_decisions.md D6, D8, D9. -/
def Obligations.HalfStoreWritesTwoBytes : Prop :=
  WordsDecodeTo 0x0000707F#32 0x00001023#32
    (fun w => .sh (fieldRs2 w) (Address.mk (fieldRs1 w) (immS w))) ∧
  ∀ (rs : Reg) (address : Address) (s : State), ∃ t, exec (.sh rs address) s = .next t ∧
    StoresBytes s t (addressOf s address) 2 (s.readReg rs)

/-- SW stores the low four bytes of x[rs] at x[base] + offset and nothing else (D6, D8, D9, log 8 to 10). Rests on
44_stores.md; 20_memory.md section 3; 92_eei_decisions.md D6, D8, D9. -/
def Obligations.WordStoreWritesFourBytes : Prop :=
  WordsDecodeTo 0x0000707F#32 0x00002023#32
    (fun w => .sw (fieldRs2 w) (Address.mk (fieldRs1 w) (immS w))) ∧
  ∀ (rs : Reg) (address : Address) (s : State), ∃ t, exec (.sw rs address) s = .next t ∧
    StoresBytes s t (addressOf s address) 4 (s.readReg rs)

/-- ADDI writes x[rs1] + imm, wrapping, and records no overflow. Follows R181. -/
def Obligations.AddiAddsTheImmediate : Prop :=
  WordsDecodeTo 0x0000707F#32 0x00000013#32 (fun w => .addi (fieldRd w) (fieldRs1 w) (immI w)) ∧
  ∀ (rd rs1 : Reg) (imm : Word) (s : State),
    Computes (.addi rd rs1 imm) s rd (fun v => v.toNat = ((s.readReg rs1).toNat + imm.toNat) % 2 ^ 32)

/-- SLTI writes 1 where s(x[rs1]) < s(imm), else 0. Follows R182. -/
def Obligations.SltiComparesSigned : Prop :=
  WordsDecodeTo 0x0000707F#32 0x00002013#32 (fun w => .slti (fieldRd w) (fieldRs1 w) (immI w)) ∧
  ∀ (rd rs1 : Reg) (imm : Word) (s : State),
    Computes (.slti rd rs1 imm) s rd (fun v => v.toNat = if (s.readReg rs1).toInt < imm.toInt then 1 else 0)

/-- SLTIU writes 1 where u(x[rs1]) < u(imm's 32-bit pattern), else 0 (D25, log 17). Rests on 45_integer_immediate.md;
92_eei_decisions.md D25. -/
def Obligations.SltiuComparesUnsigned : Prop :=
  WordsDecodeTo 0x0000707F#32 0x00003013#32 (fun w => .sltiu (fieldRd w) (fieldRs1 w) (immI w)) ∧
  ∀ (rd rs1 : Reg) (imm : Word) (s : State),
    Computes (.sltiu rd rs1 imm) s rd (fun v => v.toNat = if (s.readReg rs1).toNat < imm.toNat then 1 else 0)

/-- XORI, ORI and ANDI combine every bit of x[rs1] with the immediate's pattern. Follows R184, R185, R186. -/
def Obligations.BitwiseImmediatesCombineEveryBit : Prop :=
  WordsDecodeTo 0x0000707F#32 0x00004013#32 (fun w => .xori (fieldRd w) (fieldRs1 w) (immI w)) ∧
  WordsDecodeTo 0x0000707F#32 0x00006013#32 (fun w => .ori (fieldRd w) (fieldRs1 w) (immI w)) ∧
  WordsDecodeTo 0x0000707F#32 0x00007013#32 (fun w => .andi (fieldRd w) (fieldRs1 w) (immI w)) ∧
  ∀ (rd rs1 : Reg) (imm : Word) (s : State),
    Computes (.xori rd rs1 imm) s rd (fun v => ∀ j, j < 32 → v.getLsbD j = ((s.readReg rs1).getLsbD j ^^ imm.getLsbD j)) ∧
    Computes (.ori rd rs1 imm) s rd (fun v => ∀ j, j < 32 → v.getLsbD j = ((s.readReg rs1).getLsbD j || imm.getLsbD j)) ∧
    Computes (.andi rd rs1 imm) s rd (fun v => ∀ j, j < 32 → v.getLsbD j = ((s.readReg rs1).getLsbD j && imm.getLsbD j))

/-- SLLI, SRLI and SRAI shift x[rs1] by imm modulo 32; a shift word with w[25] = 1 is no instruction. Follows R187,
R188, R189. -/
def Obligations.ShiftImmediatesShiftByTheLowFiveBits : Prop :=
  WordsDecodeTo 0xFE00707F#32 0x00001013#32 (fun w => .slli (fieldRd w) (fieldRs1 w) (shamt w)) ∧
  WordsDecodeTo 0xFE00707F#32 0x00005013#32 (fun w => .srli (fieldRd w) (fieldRs1 w) (shamt w)) ∧
  WordsDecodeTo 0xFE00707F#32 0x40005013#32 (fun w => .srai (fieldRd w) (fieldRs1 w) (shamt w)) ∧
  (∀ w : Word, w &&& 0x0000707F#32 ∈ [0x00001013#32, 0x00005013#32] → w.getLsbD 25 = true → decodeSlot w = .empty) ∧
  ∀ (rd rs1 : Reg) (imm : Word) (s : State),
    Computes (.slli rd rs1 imm) s rd (fun v => v.toNat = (s.readReg rs1).toNat * 2 ^ (imm.toNat % 32) % 2 ^ 32) ∧
    Computes (.srli rd rs1 imm) s rd (fun v => v.toNat = (s.readReg rs1).toNat / 2 ^ (imm.toNat % 32)) ∧
    Computes (.srai rd rs1 imm) s rd (fun v => v.toInt = (s.readReg rs1).toInt / 2 ^ (imm.toNat % 32))

/-- ADD and SUB write the wrapping sum and difference and record no overflow. Follows R201, R202. -/
def Obligations.AddAndSubWrap : Prop :=
  WordsDecodeTo 0xFE00707F#32 0x00000033#32 (fun w => .add (fieldRd w) (fieldRs1 w) (fieldRs2 w)) ∧
  WordsDecodeTo 0xFE00707F#32 0x40000033#32 (fun w => .sub (fieldRd w) (fieldRs1 w) (fieldRs2 w)) ∧
  ∀ (rd rs1 rs2 : Reg) (s : State),
    Computes (.add rd rs1 rs2) s rd (fun v => v.toNat = ((s.readReg rs1).toNat + (s.readReg rs2).toNat) % 2 ^ 32) ∧
    Computes (.sub rd rs1 rs2) s rd (fun v => (v.toNat : Int) = (((s.readReg rs1).toNat : Int) - (s.readReg rs2).toNat) % 2 ^ 32)

/-- SLL, SRL and SRA shift x[rs1] by x[rs2] modulo 32. Follows R203, R207, R208. -/
def Obligations.RegisterShiftsUseTheLowFiveBits : Prop :=
  WordsDecodeTo 0xFE00707F#32 0x00001033#32 (fun w => .sll (fieldRd w) (fieldRs1 w) (fieldRs2 w)) ∧
  WordsDecodeTo 0xFE00707F#32 0x00005033#32 (fun w => .srl (fieldRd w) (fieldRs1 w) (fieldRs2 w)) ∧
  WordsDecodeTo 0xFE00707F#32 0x40005033#32 (fun w => .sra (fieldRd w) (fieldRs1 w) (fieldRs2 w)) ∧
  ∀ (rd rs1 rs2 : Reg) (s : State),
    Computes (.sll rd rs1 rs2) s rd (fun v => v.toNat = (s.readReg rs1).toNat * 2 ^ ((s.readReg rs2).toNat % 32) % 2 ^ 32) ∧
    Computes (.srl rd rs1 rs2) s rd (fun v => v.toNat = (s.readReg rs1).toNat / 2 ^ ((s.readReg rs2).toNat % 32)) ∧
    Computes (.sra rd rs1 rs2) s rd (fun v => v.toInt = (s.readReg rs1).toInt / 2 ^ ((s.readReg rs2).toNat % 32))

/-- SLT and SLTU write 1 where x[rs1] < x[rs2], signed and unsigned, else 0. Follows R204, R205. -/
def Obligations.SetLessThanWritesOneOrZero : Prop :=
  WordsDecodeTo 0xFE00707F#32 0x00002033#32 (fun w => .slt (fieldRd w) (fieldRs1 w) (fieldRs2 w)) ∧
  WordsDecodeTo 0xFE00707F#32 0x00003033#32 (fun w => .sltu (fieldRd w) (fieldRs1 w) (fieldRs2 w)) ∧
  ∀ (rd rs1 rs2 : Reg) (s : State),
    Computes (.slt rd rs1 rs2) s rd (fun v => v.toNat = if (s.readReg rs1).toInt < (s.readReg rs2).toInt then 1 else 0) ∧
    Computes (.sltu rd rs1 rs2) s rd (fun v => v.toNat = if (s.readReg rs1).toNat < (s.readReg rs2).toNat then 1 else 0)

/-- XOR, OR and AND combine every bit of the two registers. Follows R206, R209, R210. -/
def Obligations.BitwiseRegistersCombineEveryBit : Prop :=
  WordsDecodeTo 0xFE00707F#32 0x00004033#32 (fun w => .xor (fieldRd w) (fieldRs1 w) (fieldRs2 w)) ∧
  WordsDecodeTo 0xFE00707F#32 0x00006033#32 (fun w => .or (fieldRd w) (fieldRs1 w) (fieldRs2 w)) ∧
  WordsDecodeTo 0xFE00707F#32 0x00007033#32 (fun w => .and (fieldRd w) (fieldRs1 w) (fieldRs2 w)) ∧
  ∀ (rd rs1 rs2 : Reg) (s : State),
    Computes (.xor rd rs1 rs2) s rd (fun v => ∀ j, j < 32 → v.getLsbD j = ((s.readReg rs1).getLsbD j ^^ (s.readReg rs2).getLsbD j)) ∧
    Computes (.or rd rs1 rs2) s rd (fun v => ∀ j, j < 32 → v.getLsbD j = ((s.readReg rs1).getLsbD j || (s.readReg rs2).getLsbD j)) ∧
    Computes (.and rd rs1 rs2) s rd (fun v => ∀ j, j < 32 → v.getLsbD j = ((s.readReg rs1).getLsbD j && (s.readReg rs2).getLsbD j))

/-- decode of encode is the record, for every encodable record; encode of decode is the word; the encoder is injective.
Follows R104. -/
def Obligations.EncoderAndDecoderAgree : Prop :=
  (∀ i : Instr, i.wellFormed = true → ∃ w, encode i = some w ∧ decode w = .ok i) ∧
  (∀ i : Instr, i.wellFormed = false → encode i = none) ∧
  (∀ (w : Word) (i : Instr), decode w = .ok i → encode i = some w) ∧
  (∀ (i j : Instr) (w : Word), encode i = some w → encode j = some w → i = j) ∧
  ∀ (rd rs1 : Reg) (imm : Word), shiftFits imm = true →
    encode (.slli rd rs1 imm) = some (0b0000000#7 ++ imm.extractLsb' 0 5 ++ rs1 ++ 0b001#3 ++ rd ++ 0b0010011#7) ∧
    encode (.srli rd rs1 imm) = some (0b0000000#7 ++ imm.extractLsb' 0 5 ++ rs1 ++ 0b101#3 ++ rd ++ 0b0010011#7) ∧
    encode (.srai rd rs1 imm) = some (0b0100000#7 ++ imm.extractLsb' 0 5 ++ rs1 ++ 0b101#3 ++ rd ++ 0b0010011#7)

/-- A word decodes to the record of the one row it matches, and is Empty where it matches none. Rests on 30_encoding.md
Part 2; opcode_table.json; 92_eei_decisions.md D2. -/
def Obligations.DecoderFollowsTheOpcodeTable : Prop :=
  (∀ r ∈ opcodeTable, ∀ q ∈ opcodeTable, ∀ w : Word, w &&& r.mask = r.pattern → w &&& q.mask = q.pattern →
    r.mnemonic = q.mnemonic) ∧
  (∀ r ∈ opcodeTable, ∀ w : Word, w &&& r.mask = r.pattern → decodeSlot w = .instr (r.build w)) ∧
  ∀ w : Word, decodeSlot w = .empty ↔ ∀ r ∈ opcodeTable, w &&& r.mask ≠ r.pattern

/-- Register fields and immediates are the bits of the word that the formats name, sign- or zero-extended. Rests on
30_encoding.md Part 2; 92_eei_decisions.md D2. -/
def Obligations.FieldsAndImmediatesAreAssembledFromTheWord : Prop :=
  ∀ w : Word,
    (fieldRd w).toNat = w.toNat / 2 ^ 7 % 32 ∧
    (fieldRs1 w).toNat = w.toNat / 2 ^ 15 % 32 ∧
    (fieldRs2 w).toNat = w.toNat / 2 ^ 20 % 32 ∧
    (shamt w).toNat = w.toNat / 2 ^ 20 % 32 ∧
    (immU w).toNat = w.toNat / 2 ^ 12 ∧
    (immI w).toInt = signedValue 12 (w.toNat / 2 ^ 20) ∧
    (immS w).toInt = signedValue 12 (w.toNat / 2 ^ 25 * 2 ^ 5 + w.toNat / 2 ^ 7 % 2 ^ 5) ∧
    (immB w).toInt = signedValue 13 (w.toNat / 2 ^ 31 * 2 ^ 12 + w.toNat / 2 ^ 7 % 2 * 2 ^ 11 +
      w.toNat / 2 ^ 25 % 2 ^ 6 * 2 ^ 5 + w.toNat / 2 ^ 8 % 2 ^ 4 * 2) ∧
    (immJ w).toInt = signedValue 21 (w.toNat / 2 ^ 31 * 2 ^ 20 + w.toNat / 2 ^ 12 % 2 ^ 8 * 2 ^ 12 +
      w.toNat / 2 ^ 20 % 2 * 2 ^ 11 + w.toNat / 2 ^ 21 % 2 ^ 10 * 2)

/-- Unused opcodes, funct3 and funct7 values (FENCE, SYSTEM, M, ... among them) are Empty (the spec's decisions D5, D26,
log 33). Rests on 30_encoding.md Part 2; 47_system_and_unimplemented.md; 92_eei_decisions.md D2, D5, D26. -/
def Obligations.WordsOutsideTheTableAreEmpty : Prop :=
  ∀ w : Word,
    (w &&& 0x7F#32 ∉ [0x37#32, 0x17#32, 0x6F#32, 0x67#32, 0x63#32, 0x03#32, 0x23#32, 0x13#32, 0x33#32] →
      decodeSlot w = .empty) ∧
    (w &&& 0x7F#32 = 0x67#32 → w &&& 0x7000#32 ≠ 0#32 → decodeSlot w = .empty) ∧
    (w &&& 0x7F#32 = 0x63#32 → w &&& 0x7000#32 ∈ [0x2000#32, 0x3000#32] → decodeSlot w = .empty) ∧
    (w &&& 0x7F#32 = 0x03#32 → w &&& 0x7000#32 ∈ [0x3000#32, 0x6000#32, 0x7000#32] → decodeSlot w = .empty) ∧
    (w &&& 0x7F#32 = 0x23#32 → w &&& 0x7000#32 ∈ [0x3000#32, 0x4000#32, 0x5000#32, 0x6000#32, 0x7000#32] →
      decodeSlot w = .empty) ∧
    (w &&& 0x7F#32 = 0x33#32 → w &&& 0xFE000000#32 ≠ 0#32 →
      ¬ (w &&& 0xFE000000#32 = 0x40000000#32 ∧ w &&& 0x7000#32 ∈ [0x0000#32, 0x5000#32]) → decodeSlot w = .empty) ∧
    (w &&& 0x707F#32 = 0x1013#32 → w &&& 0xFE000000#32 ≠ 0#32 → decodeSlot w = .empty) ∧
    (w &&& 0x707F#32 = 0x5013#32 → w &&& 0xFE000000#32 ∉ [0#32, 0x40000000#32] → decodeSlot w = .empty)

/-- A few words written out in the spec decode as it says (a sanity statement). Rests on 95_test_vectors.md section 3;
30_encoding.md Part 2. -/
def Obligations.SampleWordsDecode : Prop :=
  decode 0xFFFFF537#32 = .ok (.lui 10#5 0x000FFFFF#32) ∧
    decode 0xFFDFF06F#32 = .ok (.jal 0#5 (.offset (-4#32))) ∧
    decode 0xFE059CE3#32 = .ok (.bne 11#5 0#5 (.offset (-8#32))) ∧
    decode 0xFEA02F23#32 = .ok (.sw 10#5 (Address.mk 0#5 (-2#32))) ∧
    decode 0x41F5D513#32 = .ok (.srai 10#5 11#5 31#32) ∧
    decode 0x40C58533#32 = .ok (.sub 10#5 11#5 12#5) ∧
    decodeSlot 0x00000000#32 = .empty ∧ decodeSlot 0x00000073#32 = .empty ∧ decodeSlot 0x02C58533#32 = .empty

/-- The loader puts the k-th instruction in slot k, binds each label to the next instruction's address, and writes
nothing else. Follows R266. -/
def Obligations.LoaderBuildsTheImageAndTheLabelTable : Prop :=
  (∀ (p : Program) (s : State), loadProgram p = .ok s →
    (∀ k, s.slot k = match (instructionsOf p)[k]? with | some i => .instr i | none => .empty) ∧
    (∀ (before after : Program) (name : LabelName), p = before ++ ProgramLine.label name :: after →
      ProgramLine.label name ∉ after →
      s.labelAddress name = some (BitVec.ofNat 32 (4 * (instructionsOf before).length))) ∧
    (∀ name, ProgramLine.label name ∉ p → s.labelAddress name = none) ∧
    s.pc = State.reset.pc ∧ s.regs = State.reset.regs ∧ s.dmem = State.reset.dmem) ∧
  ∀ p : Program, imemSlots < (instructionsOf p).length → ∃ address, loadProgram p = .error (.programTooLarge address)

/-- A program loads if and only if it has at most IMEM_SLOTS instructions (D34, log 20). Rests on
70_reset_and_hazards.md section 1; 92_eei_decisions.md D34. -/
def Obligations.LoaderRejectsExactlyTheTooLarge : Prop :=
  ∀ p : Program,
    ((instructionsOf p).length ≤ imemSlots → ∃ s, loadProgram p = .ok s) ∧
    (imemSlots < (instructionsOf p).length → loadProgram p = .error (.programTooLarge imemBytes))

/-- Loading a word image and loading the records of its words give machines with the same contents. Rests on
70_reset_and_hazards.md section 1; 92_eei_decisions.md D1. -/
def Obligations.WordImageLoadsAsItsRecords : Prop :=
  ∀ (ws : List Word) (is : List Instr), ws.map decode = is.map Except.ok → ws.length ≤ imemSlots →
    ∃ s t, loadImage ws = .ok s ∧ loadProgram (is.map ProgramLine.instruction) = .ok t ∧ SameContents s t

/-- A run ends at the first step that errs, in the state that step was taken in, or when its budget is spent (log 34).
Rests on 70_reset_and_hazards.md section 2; 92_eei_decisions.md D20. -/
def Obligations.RunsEndAtTheFirstErrorOrTheBudget : Prop :=
  ∀ (n : Nat) (s : State), ∃ (m : Nat) (states : Nat → State), m ≤ n ∧ states 0 = s ∧
    (∀ i, i < m → step (states i) = .next (states (i + 1))) ∧
    ((m = n ∧ run n s = (states m, .budgetExhausted)) ∨
      ∃ f, m < n ∧ step (states m) = .fault f ∧ run n s = (states m, .error f))

/-- The driver loads only right after reset and steps only a loaded machine; what each allowed and refused request does.
Rests on 70_reset_and_hazards.md sections 1 and 2; 60_exceptions.md section 1; 92_eei_decisions.md D19, D37, D39. -/
def Obligations.DriverLoadsAfterResetAndStepsAfterLoading : Prop :=
  ∀ (q : Session) (p : Program) (ws : List Word) (s : State) (e : LoadError) (f : Fault),
    q.request .reset = (Session.mk .fresh State.reset, .ok) ∧
    (q.phase = .fresh →
      (loadProgram p = .ok s → q.request (.load p) = (Session.mk .loaded s, .ok)) ∧
      (loadProgram p = .error e → q.request (.load p) = (Session.mk .noMachine State.reset, .loadError e)) ∧
      (loadImage ws = .ok s → q.request (.loadImage ws) = (Session.mk .loaded s, .ok)) ∧
      (loadImage ws = .error e → q.request (.loadImage ws) = (Session.mk .noMachine State.reset, .loadError e))) ∧
    (q.phase ≠ .fresh → q.request (.load p) = (q, .notAllowed) ∧ q.request (.loadImage ws) = (q, .notAllowed)) ∧
    (q.phase ≠ .loaded → q.request .step = (q, .notAllowed)) ∧
    (q.phase = .loaded → step q.state = .next s → q.request .step = (Session.mk .loaded s, .ok)) ∧
    (q.phase = .loaded → step q.state = .fault f →
      q.request .step = (q, .error f) ∧ (q.request .step).1.request .step = (q, .error f)) ∧
    (q.phase = .loaded → ∀ r, (q.request .step).2 ≠ .refused r)

/-- A register operand is accepted exactly where its text is one of the 33 names (D22, log 21); x0 to x31 are refused as
unsettled (log 21). Rests on 10_state.md section 2; 60_exceptions.md section 1; 92_eei_decisions.md D22. -/
def Obligations.RegisterNamesAreTheTable : Prop :=
  ∀ (text : String) (r : Reg) (n : Nat),
    (constructRegister text = .ok r ↔ (text, r.toNat) ∈
      [ ("zero", 0), ("ra", 1), ("sp", 2), ("gp", 3), ("tp", 4), ("t0", 5), ("t1", 6), ("t2", 7), ("s0", 8),
        ("s1", 9), ("a0", 10), ("a1", 11), ("a2", 12), ("a3", 13), ("a4", 14), ("a5", 15), ("a6", 16),
        ("a7", 17), ("s2", 18), ("s3", 19), ("s4", 20), ("s5", 21), ("s6", 22), ("s7", 23), ("s8", 24),
        ("s9", 25), ("s10", 26), ("s11", 27), ("t3", 28), ("t4", 29), ("t5", 30), ("t6", 31), ("fp", 8) ]) ∧
    (n < 32 → constructRegister ("x" ++ toString n) = .error (.refused (.numericRegisterName ("x" ++ toString n)))) ∧
    ((∀ i, constructRegister text ≠ .ok i) → (∀ i, i < 32 → text ≠ "x" ++ toString i) →
      constructRegister text = .error (.error (.invalidRegisterName text)))
end

