-- ==== Sys2Proof/Laws/Memory.lean ====
section
/-! SUPPORT. The laws of the sparse tables: a read after a write to the same key gives the value, a write leaves every
other key alone, both in every table; and every write keeps the canonical form. -/

namespace Sys2Proof.Machine.Table

variable {κ α : Type}

@[simp] theorem lookup_nil [DecidableEq κ] (k : κ) : lookup k ([] : List (κ × α)) = none := rfl

theorem lookup_cons [DecidableEq κ] (k : κ) (e : κ × α) (l : List (κ × α)) :
    lookup k (e :: l) = if e.1 = k then some e.2 else lookup k l := rfl

theorem lookup_erase_self [DecidableEq κ] (k : κ) (l : List (κ × α)) : lookup k (erase k l) = none := by
  induction l with
  | nil => rfl
  | cons e l ih =>
    by_cases h : e.1 = k
    · simpa [erase, h] using ih
    · simpa [erase, h, lookup_cons] using ih

theorem lookup_erase_ne [DecidableEq κ] {k j : κ} (h : j ≠ k) (l : List (κ × α)) :
    lookup j (erase k l) = lookup j l := by
  induction l with
  | nil => rfl
  | cons e l ih =>
    by_cases he : e.1 = k
    · have : e.1 ≠ j := fun hj => h (hj.symm.trans he)
      have ih' : lookup j (List.filter (fun e => decide (e.1 ≠ k)) l) = lookup j l := ih
      simp only [erase, List.filter_cons, he, ne_eq, not_true_eq_false, decide_false, Bool.false_eq_true, if_false,
        lookup_cons]
      rw [if_neg (fun hj => h hj.symm)]
      exact ih'
    · have ih' : lookup j (List.filter (fun e => decide (e.1 ≠ k)) l) = lookup j l := ih
      simp only [erase, List.filter_cons, he, ne_eq, not_false_eq_true, decide_true, if_true, lookup_cons]
      rw [ih']

theorem lookup_place_self [DecidableEq κ] [LT κ] [DecidableLT κ] (k : κ) (v : α) (l : List (κ × α))
    (h : lookup k l = none) : lookup k (place k v l) = some v := by
  induction l with
  | nil => simp [place, lookup_cons]
  | cons e l ih =>
    rw [lookup_cons] at h
    split at h
    · simp at h
    · rename_i hne
      simp only [place]
      split
      · rw [lookup_cons, if_neg hne]; exact ih h
      · simp [lookup_cons]

theorem lookup_place_ne [DecidableEq κ] [LT κ] [DecidableLT κ] {k j : κ} (h : j ≠ k) (v : α) (l : List (κ × α)) :
    lookup j (place k v l) = lookup j l := by
  induction l with
  | nil => simp [place, lookup_cons, Ne.symm h]
  | cons e l ih =>
    simp only [place]
    split
    · rw [lookup_cons, lookup_cons, ih]
    · rw [lookup_cons, if_neg (Ne.symm h)]

theorem lookup_bind [DecidableEq κ] [LT κ] [DecidableLT κ] (k j : κ) (v : α) (l : List (κ × α)) :
    lookup j (bind k v l) = if j = k then some v else lookup j l := by
  unfold bind
  by_cases h : j = k
  · subst h; rw [if_pos rfl]; exact lookup_place_self _ _ _ (lookup_erase_self _ _)
  · rw [if_neg h, lookup_place_ne h, lookup_erase_ne h]

@[simp] theorem read_nil [DecidableEq κ] (d : α) (k : κ) : read d k ([] : List (κ × α)) = d := rfl

/-- What a read gives after a write, in every table. -/
theorem read_write [DecidableEq κ] [LT κ] [DecidableLT κ] [DecidableEq α] (d : α) (k j : κ) (v : α)
    (l : List (κ × α)) : read d j (write d k v l) = if j = k then v else read d j l := by
  unfold read write
  by_cases hv : v = d
  · rw [if_pos hv]
    by_cases h : j = k
    · subst h; rw [lookup_erase_self, if_pos rfl]; exact hv.symm
    · rw [lookup_erase_ne h, if_neg h]
  · rw [if_neg hv, lookup_bind]
    split <;> rfl

/-! ### The canonical form -/

theorem mem_erase [DecidableEq κ] {k : κ} {e : κ × α} {l : List (κ × α)} : e ∈ erase k l ↔ e ∈ l ∧ e.1 ≠ k := by
  simp [erase]

theorem mem_place [LT κ] [DecidableLT κ] {k : κ} {v : α} {e : κ × α} {l : List (κ × α)} :
    e ∈ place k v l ↔ e = (k, v) ∨ e ∈ l := by
  induction l with
  | nil => simp [place]
  | cons a l ih =>
    simp only [place]
    split
    · simp only [List.mem_cons, ih]; tauto
    · simp only [List.mem_cons]

theorem mem_bind [DecidableEq κ] [LT κ] [DecidableLT κ] {k : κ} {v : α} {e : κ × α} {l : List (κ × α)} :
    e ∈ bind k v l ↔ e = (k, v) ∨ (e ∈ l ∧ e.1 ≠ k) := by
  unfold bind; rw [mem_place, mem_erase]

theorem rising_erase [DecidableEq κ] [LT κ] {k : κ} {l : List (κ × α)} (h : Rising l) : Rising (erase k l) :=
  List.Pairwise.filter _ h

theorem rising_place [LinearOrder κ] {k : κ} {v : α} {l : List (κ × α)} (h : Rising l) (hk : ∀ e ∈ l, e.1 ≠ k) :
    Rising (place k v l) := by
  induction l with
  | nil => simp [place, Rising]
  | cons a l ih =>
    obtain ⟨ha, hl⟩ := List.pairwise_cons.1 h
    simp only [place]
    split
    · rename_i hlt
      refine List.pairwise_cons.2 ⟨fun e he => ?_, ih hl (fun e he => hk e (List.mem_cons_of_mem _ he))⟩
      rcases mem_place.1 he with rfl | he
      · exact hlt
      · exact ha e he
    · rename_i hnlt
      have hka : k < a.1 := lt_of_le_of_ne (not_lt.1 hnlt) (Ne.symm (hk a List.mem_cons_self))
      refine List.pairwise_cons.2 ⟨fun e he => ?_, h⟩
      rcases List.mem_cons.1 he with rfl | he
      · exact hka
      · exact lt_trans hka (ha e he)

theorem rising_bind [LinearOrder κ] {k : κ} {v : α} {l : List (κ × α)} (h : Rising l) : Rising (bind k v l) :=
  rising_place (rising_erase h) (fun _ he => (mem_erase.1 he).2)

theorem rising_write [LinearOrder κ] [DecidableEq α] {d : α} {k : κ} {v : α} {l : List (κ × α)} (h : Rising l) :
    Rising (write d k v l) := by
  unfold write
  split
  · exact rising_erase h
  · exact rising_bind h

/-- A write keeps the canonical form of a table whose keys lie below `n`. -/
theorem write_keeps_form [DecidableEq α] {d : α} {n k : Nat} {v : α} {l : List (Nat × α)} (hk : k < n)
    (h : Rising l ∧ ∀ c ∈ l, c.1 < n ∧ c.2 ≠ d) : Rising (write d k v l) ∧ ∀ c ∈ write d k v l, c.1 < n ∧ c.2 ≠ d := by
  refine ⟨rising_write h.1, fun c hc => ?_⟩
  unfold write at hc
  split at hc
  · exact h.2 c (mem_erase.1 hc).1
  · rcases mem_bind.1 hc with rfl | hc
    · exact ⟨hk, ‹_›⟩
    · exact h.2 c hc.1

/-- Two canonical tables that read alike are equal data. -/
theorem eq_of_lookup_eq [LinearOrder κ] {l m : List (κ × α)} (hl : Rising l) (hm : Rising m)
    (h : ∀ k, lookup k l = lookup k m) : l = m := by
  have none_of_lt : ∀ (l : List (κ × α)) (k : κ), (∀ e ∈ l, k < e.1) → lookup k l = none := by
    intro l k hlt
    induction l with
    | nil => rfl
    | cons e l ih =>
      rw [lookup_cons, if_neg (ne_of_gt (hlt e List.mem_cons_self))]
      exact ih (fun e he => hlt e (List.mem_cons_of_mem _ he))
  induction l generalizing m with
  | nil =>
    cases m with
    | nil => rfl
    | cons e m => have := h e.1; simp [lookup_cons] at this
  | cons a l ih =>
    obtain ⟨ha, hl'⟩ := List.pairwise_cons.1 hl
    cases m with
    | nil => have := h a.1; simp [lookup_cons] at this
    | cons b m =>
      obtain ⟨hb, hm'⟩ := List.pairwise_cons.1 hm
      have hab : a.1 = b.1 := by
        rcases lt_trichotomy a.1 b.1 with hlt | heq | hgt
        · have h1 := h a.1
          rw [none_of_lt (b :: m) a.1 (fun e he => ?_)] at h1
          · simp [lookup_cons] at h1
          · rcases List.mem_cons.1 he with rfl | he
            · exact hlt
            · exact lt_trans hlt (hb e he)
        · exact heq
        · have h1 := h b.1
          rw [none_of_lt (a :: l) b.1 (fun e he => ?_)] at h1
          · simp [lookup_cons] at h1
          · rcases List.mem_cons.1 he with rfl | he
            · exact hgt
            · exact lt_trans hgt (ha e he)
      have hv : a.2 = b.2 := by
        have := h a.1
        rw [lookup_cons, lookup_cons, if_pos rfl, if_pos hab.symm] at this
        exact Option.some.inj this
      have hrest : l = m := by
        refine ih hl' hm' (fun k => ?_)
        by_cases hk : a.1 = k
        · rw [none_of_lt l k (fun e he => hk ▸ ha e he), none_of_lt m k (fun e he => hk ▸ hab ▸ hb e he)]
        · have := h k
          rwa [lookup_cons, lookup_cons, if_neg hk, if_neg (hab ▸ hk)] at this
      rw [hrest, Prod.ext hab hv]

end Sys2Proof.Machine.Table
end

