-- ==== Sys2Proof/Laws/State.lean ====
section
/-! SUPPORT. One lemma per field per update, so that no later proof unfolds a record update. -/

namespace Sys2Proof.Machine

variable (s : State) (i : Reg) (v t : Word) (k : Nat) (h : SlotHold) (b : Byte) (name : LabelName)

@[simp] theorem State.setPc_pc : (s.setPc t).pc = t := rfl
@[simp] theorem State.setPc_regs : (s.setPc t).regs = s.regs := rfl
@[simp] theorem State.setPc_imem : (s.setPc t).imem = s.imem := rfl
@[simp] theorem State.setPc_dmem : (s.setPc t).dmem = s.dmem := rfl
@[simp] theorem State.setPc_labels : (s.setPc t).labels = s.labels := rfl

@[simp] theorem State.putSlot_pc : (s.putSlot k h).pc = s.pc := rfl
@[simp] theorem State.putSlot_regs : (s.putSlot k h).regs = s.regs := rfl
@[simp] theorem State.putSlot_imem : (s.putSlot k h).imem = Table.write resetSlot k h s.imem := rfl
@[simp] theorem State.putSlot_dmem : (s.putSlot k h).dmem = s.dmem := rfl
@[simp] theorem State.putSlot_labels : (s.putSlot k h).labels = s.labels := rfl

@[simp] theorem State.putDmemByte_pc : (s.putDmemByte k b).pc = s.pc := rfl
@[simp] theorem State.putDmemByte_regs : (s.putDmemByte k b).regs = s.regs := rfl
@[simp] theorem State.putDmemByte_imem : (s.putDmemByte k b).imem = s.imem := rfl
@[simp] theorem State.putDmemByte_dmem :
    (s.putDmemByte k b).dmem = Table.write Config.reference.initDmem k b s.dmem := rfl
@[simp] theorem State.putDmemByte_labels : (s.putDmemByte k b).labels = s.labels := rfl

@[simp] theorem State.bindLabel_pc : (s.bindLabel name t).pc = s.pc := rfl
@[simp] theorem State.bindLabel_regs : (s.bindLabel name t).regs = s.regs := rfl
@[simp] theorem State.bindLabel_imem : (s.bindLabel name t).imem = s.imem := rfl
@[simp] theorem State.bindLabel_dmem : (s.bindLabel name t).dmem = s.dmem := rfl
@[simp] theorem State.bindLabel_labels : (s.bindLabel name t).labels = Table.bind name t s.labels := rfl

@[simp] theorem State.writeReg_pc : (s.writeReg i v).pc = s.pc := by unfold State.writeReg; split <;> rfl
@[simp] theorem State.writeReg_imem : (s.writeReg i v).imem = s.imem := by unfold State.writeReg; split <;> rfl
@[simp] theorem State.writeReg_dmem : (s.writeReg i v).dmem = s.dmem := by unfold State.writeReg; split <;> rfl
@[simp] theorem State.writeReg_labels : (s.writeReg i v).labels = s.labels := by unfold State.writeReg; split <;> rfl

variable (a : Word) (be : BitVec 4) (j : Nat)

@[simp] theorem State.storedByte_pc : (s.storedByte a be v j).pc = s.pc := by unfold State.storedByte; split <;> rfl
@[simp] theorem State.storedByte_regs : (s.storedByte a be v j).regs = s.regs := by
  unfold State.storedByte; split <;> rfl
@[simp] theorem State.storedByte_imem : (s.storedByte a be v j).imem = s.imem := by
  unfold State.storedByte; split <;> rfl
@[simp] theorem State.storedByte_labels : (s.storedByte a be v j).labels = s.labels := by
  unfold State.storedByte; split <;> rfl

@[simp] theorem State.dmemStore_pc : (s.dmemStore a be v).pc = s.pc := by simp [State.dmemStore]
@[simp] theorem State.dmemStore_regs : (s.dmemStore a be v).regs = s.regs := by simp [State.dmemStore]
@[simp] theorem State.dmemStore_imem : (s.dmemStore a be v).imem = s.imem := by simp [State.dmemStore]
@[simp] theorem State.dmemStore_labels : (s.dmemStore a be v).labels = s.labels := by simp [State.dmemStore]

variable (n : AccessSize)

@[simp] theorem State.memWrite_pc : (s.memWrite a n v).pc = s.pc := by simp [State.memWrite]
@[simp] theorem State.memWrite_regs : (s.memWrite a n v).regs = s.regs := by simp [State.memWrite]
@[simp] theorem State.memWrite_imem : (s.memWrite a n v).imem = s.imem := by simp [State.memWrite]
@[simp] theorem State.memWrite_labels : (s.memWrite a n v).labels = s.labels := by simp [State.memWrite]

/-! ### What an accessor reads depends on its own field only -/

theorem State.readReg_congr {s t : State} (h : s.regs = t.regs) (i : Reg) : s.readReg i = t.readReg i := by
  unfold State.readReg; rw [h]

theorem State.dmemByte_congr {s t : State} (h : s.dmem = t.dmem) (k : Nat) : s.dmemByte k = t.dmemByte k := by
  unfold State.dmemByte; rw [h]

theorem State.slotHold_congr {s t : State} (h : s.imem = t.imem) (k : Nat) : s.slotHold k = t.slotHold k := by
  unfold State.slotHold; rw [h]

theorem State.labelAddress_congr {s t : State} (h : s.labels = t.labels) (n : LabelName) :
    s.labelAddress n = t.labelAddress n := by
  unfold State.labelAddress; rw [h]

end Sys2Proof.Machine
end

