-- ==== Sys2Proof/Laws/Ops.lean ====
section
/-! SUPPORT. One spec lemma per operation of Machine/Ops.lean and Machine/Operands.lean: what it reads after what it
wrote, and the closed form of the address translations. -/

namespace Sys2Proof.Machine

/-! ### Registers -/

@[simp] theorem State.readReg_zero (s : State) : s.readReg 0#5 = 0#32 := rfl

/-- What a register reads as after a register write, register 0 included (R21, R22). -/
theorem State.readReg_writeReg (s : State) (i j : Reg) (v : Word) :
    (s.writeReg i v).readReg j = if j = 0#5 then 0#32 else if j = i then v else s.readReg j := by
  by_cases hj : j = 0#5
  · simp [hj]
  rw [if_neg hj]
  have hjn : j.toNat ≠ 0 := fun h => hj (BitVec.eq_of_toNat_eq h)
  have hjl : j.toNat < 32 := j.isLt
  by_cases hi : i = 0#5
  · have : j ≠ i := fun h => hj (h.trans hi)
    rw [if_neg this]; simp [State.writeReg, hi]
  have hin : i.toNat ≠ 0 := fun h => hi (BitVec.eq_of_toNat_eq h)
  have hil : i.toNat < 32 := i.isLt
  simp only [State.writeReg, if_neg hi, State.readReg, if_neg hj]
  by_cases h : j = i
  · subst h
    have : j.toNat - 1 < 31 := by omega
    simp [this]
  · have hne : i.toNat - 1 ≠ j.toNat - 1 := fun hh => h (BitVec.eq_of_toNat_eq (by omega))
    rw [if_neg h, Vector.getElem?_setIfInBounds_ne hne]

@[simp] theorem State.readReg_setPc (s : State) (t : Word) (i : Reg) : (s.setPc t).readReg i = s.readReg i := rfl

@[simp] theorem State.dmemByte_setPc (s : State) (t : Word) (k : Nat) : (s.setPc t).dmemByte k = s.dmemByte k := rfl

@[simp] theorem State.dmemByte_writeReg (s : State) (i : Reg) (v : Word) (k : Nat) :
    (s.writeReg i v).dmemByte k = s.dmemByte k := State.dmemByte_congr (by simp) k

/-! ### Address translation -/

theorem imemBytes_eq : imemBytes = 4096 := rfl
theorem imemSlots_eq : imemSlots = 1024 := rfl
theorem dmemBytes_eq : dmemBytes = 16384 := rfl

theorem dTrans_eq_mod (a : Word) : dTrans a = a.toNat % dmemBytes :=
  Nat.and_two_pow_sub_one_eq_mod a.toNat 14

theorem iTrans_eq (a : Word) : iTrans a = a.toNat % imemBytes / 4 := by
  show (a.toNat &&& (2 ^ 12 - 1)) / 4 = _
  rw [Nat.and_two_pow_sub_one_eq_mod]; rfl

theorem iTrans_lt (a : Word) : iTrans a < imemSlots := by
  rw [iTrans_eq, imemBytes_eq, imemSlots_eq]; omega

theorem windowIndex_lt (a : Word) (i : Nat) : windowIndex a i < dmemBytes := Nat.mod_lt _ (by decide)

theorem windowIndex_eq (a : Word) (i : Nat) : windowIndex a i = accessedIndex a i := by
  unfold windowIndex accessedIndex; rw [dTrans_eq_mod]

/-- The four bytes of a window are four different bytes. -/
theorem windowIndex_inj {a : Word} {i j : Nat} (hi : i < 4) (hj : j < 4) (h : windowIndex a i = windowIndex a j) :
    i = j := by
  have hd : dTrans a < dmemBytes := by rw [dTrans_eq_mod]; exact Nat.mod_lt _ (by decide)
  unfold windowIndex at h
  rw [dmemBytes_eq] at h hd
  omega

/-! ### Slots and labels -/

theorem State.slotHold_putSlot (s : State) (k j : Nat) (h : SlotHold) :
    (s.putSlot k h).slotHold j = if j = k then h else s.slotHold j := Table.read_write _ _ _ _ _

theorem State.slot_putSlot (s : State) (k j : Nat) (h : SlotHold) :
    (s.putSlot k h).slot j = if j = k then h.content else s.slot j := by
  unfold State.slot; rw [State.slotHold_putSlot]; split <;> rfl

theorem State.labelAddress_bindLabel (s : State) (n m : LabelName) (a : Word) :
    (s.bindLabel n a).labelAddress m = if m = n then some a else s.labelAddress m := Table.lookup_bind _ _ _ _

/-! ### The data port -/

theorem State.dmemByte_putDmemByte (s : State) (k j : Nat) (b : Byte) :
    (s.putDmemByte k b).dmemByte j = if j = k then b else s.dmemByte j := Table.read_write _ _ _ _ _

theorem State.dmemByte_storedByte (s : State) (a : Word) (be : BitVec 4) (v : Word) (i j : Nat) :
    (s.storedByte a be v i).dmemByte j =
      if be.getLsbD i ∧ j = windowIndex a i then v.extractLsb' (8 * i) 8 else s.dmemByte j := by
  unfold State.storedByte
  by_cases h : be.getLsbD i = true
  · rw [if_pos h, State.dmemByte_putDmemByte]; simp [h]
  · rw [if_neg h]; simp [h]

/-- A byte outside the enabled window bytes keeps its value (R61). -/
theorem State.dmemByte_dmemStore_ne (s : State) (a : Word) (be : BitVec 4) (v : Word) (j : Nat)
    (h : ∀ i, i < 4 → be.getLsbD i → j ≠ windowIndex a i) : (s.dmemStore a be v).dmemByte j = s.dmemByte j := by
  have h' : ∀ i, i < 4 → ¬ (be.getLsbD i = true ∧ j = windowIndex a i) := fun i hi hb => h i hi hb.1 hb.2
  unfold State.dmemStore
  rw [dmemByte_storedByte, if_neg (h' 3 (by decide)), dmemByte_storedByte, if_neg (h' 2 (by decide)),
    dmemByte_storedByte, if_neg (h' 1 (by decide)), dmemByte_storedByte, if_neg (h' 0 (by decide))]

/-- An enabled window byte takes its byte of the value (R61). -/
theorem State.dmemByte_dmemStore_self (s : State) (a : Word) (be : BitVec 4) (v : Word) {i : Nat} (hi : i < 4)
    (hb : be.getLsbD i) : (s.dmemStore a be v).dmemByte (windowIndex a i) = v.extractLsb' (8 * i) 8 := by
  have key : ∀ (s : State) (j : Nat), j < 4 → j ≠ i →
      (s.storedByte a be v j).dmemByte (windowIndex a i) = s.dmemByte (windowIndex a i) := by
    intro s j hj hne
    rw [dmemByte_storedByte, if_neg (fun hc => hne (windowIndex_inj hj hi hc.2.symm))]
  have self : ∀ s : State, (s.storedByte a be v i).dmemByte (windowIndex a i) = v.extractLsb' (8 * i) 8 := by
    intro s; rw [dmemByte_storedByte, if_pos ⟨hb, rfl⟩]
  unfold State.dmemStore
  obtain rfl | rfl | rfl | rfl : i = 0 ∨ i = 1 ∨ i = 2 ∨ i = 3 := by omega
  · rw [key _ 3 (by decide) (by decide), key _ 2 (by decide) (by decide), key _ 1 (by decide) (by decide), self]
  · rw [key _ 3 (by decide) (by decide), key _ 2 (by decide) (by decide), self]
  · rw [key _ 3 (by decide) (by decide), self]
  · exact self _

theorem AccessSize.enables_getLsbD (n : AccessSize) (i : Nat) (hi : i < 4) : n.enables.getLsbD i = decide (i < n.bytes) := by
  obtain rfl | rfl | rfl | rfl : i = 0 ∨ i = 1 ∨ i = 2 ∨ i = 3 := by omega
  all_goals cases n <;> rfl

theorem AccessSize.bytes_le (n : AccessSize) : n.bytes ≤ 4 := by cases n <;> decide

/-- `MemWrite` writes the low `n` bytes of the value (R62). -/
theorem State.dmemByte_memWrite_self (s : State) (a : Word) (n : AccessSize) (v : Word) {i : Nat} (hi : i < n.bytes) :
    (s.memWrite a n v).dmemByte (windowIndex a i) = v.extractLsb' (8 * i) 8 := by
  have hi4 : i < 4 := lt_of_lt_of_le hi n.bytes_le
  exact State.dmemByte_dmemStore_self s a n.enables v hi4 (by rw [AccessSize.enables_getLsbD n i hi4]; simpa using hi)

/-- `MemWrite` writes nothing else (R62). -/
theorem State.dmemByte_memWrite_ne (s : State) (a : Word) (n : AccessSize) (v : Word) (j : Nat)
    (h : ∀ i, i < n.bytes → j ≠ windowIndex a i) : (s.memWrite a n v).dmemByte j = s.dmemByte j := by
  refine State.dmemByte_dmemStore_ne s a n.enables v j (fun i hi hb => h i ?_)
  rw [AccessSize.enables_getLsbD n i hi] at hb
  simpa using hb

/-- A load depends on the data bytes only. -/
theorem State.memRead_congr {s t : State} (h : ∀ k, s.dmemByte k = t.dmemByte k) (a : Word) (n : AccessSize) :
    s.memRead a n = t.memRead a n := by
  simp only [State.memRead, State.dmemLoad, State.loadedByte, h]

/-! ### Targets -/

theorem State.resolve_offset (s : State) (off : Word) : s.resolve (.offset off) = .ok (s.pc + off) := rfl

theorem State.resolve_label_bound {s : State} {n : LabelName} {t : Word} (h : s.labelAddress n = some t) :
    s.resolve (.label n) = .ok t := by
  simp [State.resolve, h]

theorem State.resolve_label_unbound {s : State} {n : LabelName} (h : s.labelAddress n = none) :
    s.resolve (.label n) = .error (.unknownLabel n) := by
  simp [State.resolve, h]

/-- The only error of a resolution is that of an unbound label (R142). -/
theorem State.resolve_error {s : State} {target : JumpTarget} {f : Fault} (h : s.resolve target = .error f) :
    ∃ n, target = .label n ∧ s.labelAddress n = none ∧ f = .unknownLabel n := by
  cases target with
  | offset off => simp [State.resolve] at h
  | label n =>
    refine ⟨n, rfl, ?_⟩
    simp only [State.resolve] at h
    split at h
    · simp at h
    · exact ⟨‹_›, by simpa using h.symm⟩

end Sys2Proof.Machine
end

