-- ==== Sys2Proof/Laws/Canonical.lean ====
section
/-! SUPPORT. Every operation that writes a memory or the label table keeps its canonical form (log 32), and canonical
memories that read alike are equal data. -/

namespace Sys2Proof.Machine

theorem memory_wf_reset : Memory.wf State.reset.dmem := ⟨List.Pairwise.nil, by simp [State.reset]⟩

theorem memory_wf_putDmemByte {s : State} {k : Nat} {b : Byte} (hk : k < dmemBytes) (h : Memory.wf s.dmem) :
    Memory.wf (s.putDmemByte k b).dmem := Table.write_keeps_form hk h

theorem memory_wf_storedByte {s : State} {a : Word} {be : BitVec 4} {v : Word} {i : Nat} (h : Memory.wf s.dmem) :
    Memory.wf (s.storedByte a be v i).dmem := by
  unfold State.storedByte
  split
  · exact memory_wf_putDmemByte (windowIndex_lt a i) h
  · exact h

theorem memory_wf_memWrite {s : State} {a : Word} {n : AccessSize} {v : Word} (h : Memory.wf s.dmem) :
    Memory.wf (s.memWrite a n v).dmem :=
  memory_wf_storedByte (memory_wf_storedByte (memory_wf_storedByte (memory_wf_storedByte h)))

theorem instructionMemory_wf_putSlot {s : State} {k : Nat} {d : SlotHold} (hk : k < imemSlots)
    (h : InstructionMemory.wf s.imem) : InstructionMemory.wf (s.putSlot k d).imem := Table.write_keeps_form hk h

theorem labelTable_wf_bindLabel {s : State} {name : LabelName} {a : Word} (h : LabelTable.wf s.labels) :
    LabelTable.wf (s.bindLabel name a).labels := Table.rising_bind h

/-- Equal bytes are equal data. -/
theorem dmem_eq_of_bytes_eq {s t : State} (hs : Memory.wf s.dmem) (ht : Memory.wf t.dmem)
    (h : ∀ k, s.dmemByte k = t.dmemByte k) : s.dmem = t.dmem := by
  refine Table.eq_of_lookup_eq hs.1 ht.1 (fun k => ?_)
  have key : ∀ (m : List Host.Cell), (∀ c ∈ m, c.2 ≠ Config.reference.initDmem) → ∀ k b, Table.lookup k m = some b →
      b ≠ Config.reference.initDmem := by
    intro m hm k b hb
    induction m with
    | nil => simp at hb
    | cons e m ih =>
      rw [Table.lookup_cons] at hb
      split at hb
      · exact Option.some.inj hb ▸ hm e List.mem_cons_self
      · exact ih (fun c hc => hm c (List.mem_cons_of_mem _ hc)) hb
  have hk := h k
  unfold State.dmemByte Table.read at hk
  cases h1 : Table.lookup k s.dmem with
  | none =>
    cases h2 : Table.lookup k t.dmem with
    | none => rfl
    | some b => rw [h1, h2] at hk; exact absurd hk.symm (key _ (fun c hc => (ht.2 c hc).2) k b h2)
  | some b =>
    cases h2 : Table.lookup k t.dmem with
    | none => rw [h1, h2] at hk; exact absurd hk (key _ (fun c hc => (hs.2 c hc).2) k b h1)
    | some c => rw [h1, h2] at hk; exact congrArg some hk

end Sys2Proof.Machine
end

