-- ==== Sys2Proof/Laws/Encoding.lean ====
section
/-! SUPPORT. The opcode table's rows exclude each other, so the row a word matches decides its decoding; the selecting
bits of a word of each format are those the encoder puts there. -/

namespace Sys2Proof

/-- R106: "rows differ in a bit both masks cover". -/
def OpcodeRow.conflicts (r q : OpcodeRow) : Bool := r.pattern &&& q.mask != q.pattern &&& r.mask

theorem OpcodeRow.not_selects_of_conflicts {r q : OpcodeRow} {w : Word} (hc : r.conflicts q = true)
    (hr : r.selects w = true) : q.selects w = false := by
  rw [Bool.eq_false_iff]
  intro hq
  simp only [OpcodeRow.selects, beq_iff_eq] at hr hq
  simp only [OpcodeRow.conflicts, bne_iff_ne, ne_eq] at hc
  apply hc
  rw [← hr, ← hq, BitVec.and_assoc, BitVec.and_assoc, BitVec.and_comm r.mask]

/-- The first row of pairwise conflicting rows that selects a word is the only one. -/
theorem find?_selects {l : List OpcodeRow} (hl : l.Pairwise (fun r q => r.conflicts q = true)) {r : OpcodeRow}
    (hr : r ∈ l) {w : Word} (hw : r.selects w = true) : l.find? (fun q => q.selects w) = some r := by
  induction l with
  | nil => simp at hr
  | cons q l ih =>
    obtain ⟨hq, hl'⟩ := List.pairwise_cons.1 hl
    rcases List.mem_cons.1 hr with rfl | hr
    · simp [hw]
    · have hqf : q.selects w = false := by
        rw [Bool.eq_false_iff]
        intro hqs
        have := OpcodeRow.not_selects_of_conflicts (hq r hr) hqs
        rw [hw] at this
        exact absurd this (by decide)
      rw [List.find?_cons, hqf]
      exact ih hl' hr

/-- R106: no two rows can match the same word. -/
theorem opcodeTable_conflicts : opcodeTable.Pairwise (fun r q => r.conflicts q = true) := by decide

/-- R103: a word decodes to the record of the row it matches. -/
theorem decode_of_row {r : OpcodeRow} (hr : r ∈ opcodeTable) {w : Word} (hw : r.selects w = true) :
    decode w = .ok (r.build w) := by
  simp only [decode, find?_selects opcodeTable_conflicts hr hw]

/-- A word that decodes matches a row, and its record is that row's. -/
theorem row_of_decode {w : Word} {i : Instr} (h : decode w = .ok i) :
    ∃ r ∈ opcodeTable, r.selects w = true ∧ i = r.build w := by
  unfold decode at h
  split at h
  · rename_i row hrow
    exact ⟨row, List.mem_of_find?_eq_some hrow, List.find?_some (p := fun row : OpcodeRow => row.selects w) hrow, by simpa using h.symm⟩
  · simp at h

theorem decodeSlot_of_decode {w : Word} {i : Instr} (h : decode w = .ok i) : decodeSlot w = .instr i := by
  unfold decodeSlot; rw [h]

/-! ### The selecting bits of an encoded word -/

theorem encodeR_and (f7 : BitVec 7) (rs2 rs1 : Reg) (f3 : BitVec 3) (rd : Reg) (op : BitVec 7) :
    encodeR f7 rs2 rs1 f3 rd op &&& 0xFE00707F#32 = f7 ++ 0#5 ++ 0#5 ++ f3 ++ 0#5 ++ op := by
  apply BitVec.eq_of_getLsbD_eq
  intro i hi
  simp only [encodeR, BitVec.getLsbD_and, BitVec.getLsbD_append]
  interval_cases i <;> simp

theorem encodeI_and (imm : Word) (rs1 : Reg) (f3 : BitVec 3) (rd : Reg) (op : BitVec 7) :
    encodeI imm rs1 f3 rd op &&& 0x0000707F#32 = 0#12 ++ 0#5 ++ f3 ++ 0#5 ++ op := by
  apply BitVec.eq_of_getLsbD_eq
  intro i hi
  simp only [encodeI, BitVec.getLsbD_and, BitVec.getLsbD_append]
  interval_cases i <;> simp

theorem encodeS_and (imm : Word) (rs2 rs1 : Reg) (f3 : BitVec 3) (op : BitVec 7) :
    encodeS imm rs2 rs1 f3 op &&& 0x0000707F#32 = 0#7 ++ 0#5 ++ 0#5 ++ f3 ++ 0#5 ++ op := by
  apply BitVec.eq_of_getLsbD_eq
  intro i hi
  simp only [encodeS, BitVec.getLsbD_and, BitVec.getLsbD_append]
  interval_cases i <;> simp

theorem encodeB_and (imm : Word) (rs2 rs1 : Reg) (f3 : BitVec 3) (op : BitVec 7) :
    encodeB imm rs2 rs1 f3 op &&& 0x0000707F#32 = 0#7 ++ 0#5 ++ 0#5 ++ f3 ++ 0#5 ++ op := by
  apply BitVec.eq_of_getLsbD_eq
  intro i hi
  simp only [encodeB, BitVec.getLsbD_and, BitVec.getLsbD_append]
  interval_cases i <;> simp

theorem encodeU_and (imm : Word) (rd : Reg) (op : BitVec 7) :
    encodeU imm rd op &&& 0x0000007F#32 = 0#20 ++ 0#5 ++ op := by
  apply BitVec.eq_of_getLsbD_eq
  intro i hi
  simp only [encodeU, BitVec.getLsbD_and, BitVec.getLsbD_append]
  interval_cases i <;> simp

theorem encodeJ_and (imm : Word) (rd : Reg) (op : BitVec 7) :
    encodeJ imm rd op &&& 0x0000007F#32 = 0#20 ++ 0#5 ++ op := by
  apply BitVec.eq_of_getLsbD_eq
  intro i hi
  simp only [encodeJ, BitVec.getLsbD_and, BitVec.getLsbD_append]
  interval_cases i <;> simp

end Sys2Proof
end

