-- ==== Sys2Proof/Laws/Exec.lean ====
section
/-! SUPPORT. What the shared ends of an instruction do, in the terms of Sys2Proof/Safety.lean, and once, for all
instructions, everything `exec` and `step` can answer. -/

namespace Sys2Proof.Machine

/-! ### The shared ends -/

theorem sameMemories_refl (s : State) : SameMemories s s := ⟨fun _ => rfl, rfl, rfl⟩

/-- A commit writes its register and the pc and nothing else. -/
theorem writesRegister_commit (s : State) (rd : Reg) (v next : Word) :
    WritesRegister s ((s.writeReg rd v).setPc next) rd v next := by
  refine ⟨rfl, fun i => ?_, fun k => ?_, ?_, ?_⟩
  · rw [State.readReg_setPc, State.readReg_writeReg]
  · simp
  · simp
  · simp

theorem commit_writesRegister (s : State) (rd : Reg) (v next : Word) :
    ∃ t, s.commit rd v next = .next t ∧ WritesRegister s t rd v next :=
  ⟨_, rfl, writesRegister_commit s rd v next⟩

/-- Setting the pc changes nothing else. -/
theorem writesPc_setPc (s : State) (next : Word) : WritesPc s (s.setPc next) next :=
  ⟨rfl, fun _ => rfl, fun _ => rfl, rfl, rfl⟩

/-- A store writes its bytes and the pc and nothing else. -/
theorem storesBytes_memWrite (s : State) (a : Word) (n : AccessSize) (v : Word) :
    StoresBytes s ((s.memWrite a n v).setPc s.nextPc) a n.bytes v := by
  refine ⟨rfl, fun i => ?_, by simp, by simp, fun i hi => ?_, fun k hk => ?_⟩
  · rw [State.readReg_setPc]; exact State.readReg_congr (by simp) i
  · rw [State.dmemByte_setPc, ← windowIndex_eq]; exact State.dmemByte_memWrite_self s a n v hi
  · rw [State.dmemByte_setPc]
    exact State.dmemByte_memWrite_ne s a n v k (fun i hi => windowIndex_eq a i ▸ hk i hi)

/-- Everything a branch can answer. -/
theorem branch_cases (cond : BranchCondition) (rs1 rs2 : Reg) (target : JumpTarget) (s : State) :
    (∃ next, branch cond rs1 rs2 target s = .next (s.setPc next)) ∨
      (∃ name, target = .label name ∧ s.labelAddress name = none ∧ conditionHolds cond (s.readReg rs1) (s.readReg rs2) ∧
        branch cond rs1 rs2 target s = .fault (.unknownLabel name)) := by
  unfold branch
  split
  · cases h : s.resolve target with
    | ok t => exact .inl ⟨t, rfl⟩
    | error f =>
      obtain ⟨n, ht, hn, rfl⟩ := State.resolve_error h
      exact .inr ⟨n, ht, hn, ‹_›, rfl⟩
  · exact .inl ⟨_, rfl⟩

/-! ### Everything exec can answer -/

/-- An instruction commits its destination register, or sets the pc, or stores, or raises UnknownLabel for its own
unbound label. -/
theorem exec_cases (i : Instr) (s : State) :
    (∃ rd v next, i.destination = some rd ∧ i.isStore = false ∧ exec i s = .next ((s.writeReg rd v).setPc next)) ∨
      (∃ next, i.destination = none ∧ i.isStore = false ∧ exec i s = .next (s.setPc next)) ∨
      (∃ a n v, i.destination = none ∧ i.isStore = true ∧ exec i s = .next ((s.memWrite a n v).setPc s.nextPc)) ∨
      (∃ name, i.target? = some (.label name) ∧ s.labelAddress name = none ∧
        exec i s = .fault (.unknownLabel name)) := by
  have hbranch : ∀ (cond : BranchCondition) (rs1 rs2 : Reg) (target : JumpTarget) (j : Instr),
      j.destination = none → j.isStore = false → j.target? = some target → exec j s = branch cond rs1 rs2 target s → 
      (∃ next, j.destination = none ∧ j.isStore = false ∧ exec j s = .next (s.setPc next)) ∨
        (∃ name, j.target? = some (.label name) ∧ s.labelAddress name = none ∧
          exec j s = .fault (.unknownLabel name)) := by
    intro cond rs1 rs2 target j hd hst ht he
    rcases branch_cases cond rs1 rs2 target s with ⟨next, h⟩ | ⟨name, htl, hn, -, h⟩
    · exact .inl ⟨next, hd, hst, he.trans h⟩
    · exact .inr ⟨name, by rw [ht, htl], hn, he.trans h⟩
  cases i with
  | jal rd target =>
    cases h : s.resolve target with
    | ok t => exact .inl ⟨rd, s.nextPc, t, rfl, rfl, by simp only [exec, execJal, h]; rfl⟩
    | error f =>
      obtain ⟨n, ht, hn, rfl⟩ := State.resolve_error h
      exact .inr (.inr (.inr ⟨n, by rw [ht]; rfl, hn, by simp only [exec, execJal, h]; rfl⟩))
  | beq rs1 rs2 target => exact (hbranch .eq rs1 rs2 target _ rfl rfl rfl rfl).elim (.inr ∘ .inl) (.inr ∘ .inr ∘ .inr)
  | bne rs1 rs2 target => exact (hbranch .ne rs1 rs2 target _ rfl rfl rfl rfl).elim (.inr ∘ .inl) (.inr ∘ .inr ∘ .inr)
  | blt rs1 rs2 target => exact (hbranch .lt rs1 rs2 target _ rfl rfl rfl rfl).elim (.inr ∘ .inl) (.inr ∘ .inr ∘ .inr)
  | bge rs1 rs2 target => exact (hbranch .ge rs1 rs2 target _ rfl rfl rfl rfl).elim (.inr ∘ .inl) (.inr ∘ .inr ∘ .inr)
  | bltu rs1 rs2 target => exact (hbranch .ltu rs1 rs2 target _ rfl rfl rfl rfl).elim (.inr ∘ .inl) (.inr ∘ .inr ∘ .inr)
  | bgeu rs1 rs2 target => exact (hbranch .geu rs1 rs2 target _ rfl rfl rfl rfl).elim (.inr ∘ .inl) (.inr ∘ .inr ∘ .inr)
  | sb rs address => exact .inr (.inr (.inl ⟨_, .one, _, rfl, rfl, rfl⟩))
  | sh rs address => exact .inr (.inr (.inl ⟨_, .two, _, rfl, rfl, rfl⟩))
  | sw rs address => exact .inr (.inr (.inl ⟨_, .four, _, rfl, rfl, rfl⟩))
  | _ => exact .inl ⟨_, _, _, rfl, rfl, rfl⟩

/-- A step executes the record at the pc, or raises InvalidOpcode because there is none. -/
theorem step_cases (s : State) :
    (∃ i, s.fetch = .instr i ∧ step s = exec i s) ∨ (s.fetch = .empty ∧ step s = .fault .invalidOpcode) := by
  unfold step
  cases h : s.fetch with
  | instr i => exact .inl ⟨i, rfl, rfl⟩
  | empty => exact .inr ⟨rfl, rfl⟩

end Sys2Proof.Machine
end

