-- ==== Sys2Proof/Laws/PerInstr.lean ====
section
/-! SUPPORT. The family EncodedOpcode: the low seven bits of an instruction's encoded word are its major opcode (R105),
one lemma per constructor. -/

namespace Sys2Proof.Laws.EncodedOpcode

/-- R105: the major opcode of each instruction. -/
def majorOpcode : Instr → BitVec 7
  | .lui _ _ => 0b0110111#7
  | .auipc _ _ => 0b0010111#7
  | .jal _ _ => 0b1101111#7
  | .jalr _ _ _ => 0b1100111#7
  | .beq _ _ _ => 0b1100011#7
  | .bne _ _ _ => 0b1100011#7
  | .blt _ _ _ => 0b1100011#7
  | .bge _ _ _ => 0b1100011#7
  | .bltu _ _ _ => 0b1100011#7
  | .bgeu _ _ _ => 0b1100011#7
  | .lb _ _ => 0b0000011#7
  | .lh _ _ => 0b0000011#7
  | .lw _ _ => 0b0000011#7
  | .lbu _ _ => 0b0000011#7
  | .lhu _ _ => 0b0000011#7
  | .sb _ _ => 0b0100011#7
  | .sh _ _ => 0b0100011#7
  | .sw _ _ => 0b0100011#7
  | .addi _ _ _ => 0b0010011#7
  | .slti _ _ _ => 0b0010011#7
  | .sltiu _ _ _ => 0b0010011#7
  | .xori _ _ _ => 0b0010011#7
  | .ori _ _ _ => 0b0010011#7
  | .andi _ _ _ => 0b0010011#7
  | .slli _ _ _ => 0b0010011#7
  | .srli _ _ _ => 0b0010011#7
  | .srai _ _ _ => 0b0010011#7
  | .add _ _ _ => 0b0110011#7
  | .sub _ _ _ => 0b0110011#7
  | .sll _ _ _ => 0b0110011#7
  | .slt _ _ _ => 0b0110011#7
  | .sltu _ _ _ => 0b0110011#7
  | .xor _ _ _ => 0b0110011#7
  | .srl _ _ _ => 0b0110011#7
  | .sra _ _ _ => 0b0110011#7
  | .or _ _ _ => 0b0110011#7
  | .and _ _ _ => 0b0110011#7

/-- The encoded word's bits 6 … 0 are the major opcode. -/
def Statement (i : Instr) : Prop := (encodeWord i).extractLsb' 0 7 = majorOpcode i

theorem opcode_encodeR (f7 : BitVec 7) (rs2 rs1 : Reg) (f3 : BitVec 3) (rd : Reg) (op : BitVec 7) : (encodeR f7 rs2 rs1 f3 rd op).extractLsb' 0 7 = op := by
  simp only [encodeR, BitVec.extractLsb'_append_eq_right]

theorem opcode_encodeI (imm : Word) (rs1 : Reg) (f3 : BitVec 3) (rd : Reg) (op : BitVec 7) : (encodeI imm rs1 f3 rd op).extractLsb' 0 7 = op := by
  simp only [encodeI, BitVec.extractLsb'_append_eq_right]

theorem opcode_encodeS (imm : Word) (rs2 rs1 : Reg) (f3 : BitVec 3) (op : BitVec 7) : (encodeS imm rs2 rs1 f3 op).extractLsb' 0 7 = op := by
  simp only [encodeS, BitVec.extractLsb'_append_eq_right]

theorem opcode_encodeB (imm : Word) (rs2 rs1 : Reg) (f3 : BitVec 3) (op : BitVec 7) : (encodeB imm rs2 rs1 f3 op).extractLsb' 0 7 = op := by
  simp only [encodeB, BitVec.extractLsb'_append_eq_right]

theorem opcode_encodeU (imm : Word) (rd : Reg) (op : BitVec 7) : (encodeU imm rd op).extractLsb' 0 7 = op := by
  simp only [encodeU, BitVec.extractLsb'_append_eq_right]

theorem opcode_encodeJ (imm : Word) (rd : Reg) (op : BitVec 7) : (encodeJ imm rd op).extractLsb' 0 7 = op := by
  simp only [encodeJ, BitVec.extractLsb'_append_eq_right]

theorem lui (rd : Reg) (imm : Word) : Statement (.lui rd imm) := opcode_encodeU _ _ _

theorem auipc (rd : Reg) (imm : Word) : Statement (.auipc rd imm) := opcode_encodeU _ _ _

theorem jal (rd : Reg) (target : JumpTarget) : Statement (.jal rd target) := opcode_encodeJ _ _ _

theorem jalr (rd : Reg) (base : Reg) (offset : Word) : Statement (.jalr rd base offset) := opcode_encodeI _ _ _ _ _

theorem beq (rs1 : Reg) (rs2 : Reg) (target : JumpTarget) : Statement (.beq rs1 rs2 target) := opcode_encodeB _ _ _ _ _

theorem bne (rs1 : Reg) (rs2 : Reg) (target : JumpTarget) : Statement (.bne rs1 rs2 target) := opcode_encodeB _ _ _ _ _

theorem blt (rs1 : Reg) (rs2 : Reg) (target : JumpTarget) : Statement (.blt rs1 rs2 target) := opcode_encodeB _ _ _ _ _

theorem bge (rs1 : Reg) (rs2 : Reg) (target : JumpTarget) : Statement (.bge rs1 rs2 target) := opcode_encodeB _ _ _ _ _

theorem bltu (rs1 : Reg) (rs2 : Reg) (target : JumpTarget) : Statement (.bltu rs1 rs2 target) := opcode_encodeB _ _ _ _ _

theorem bgeu (rs1 : Reg) (rs2 : Reg) (target : JumpTarget) : Statement (.bgeu rs1 rs2 target) := opcode_encodeB _ _ _ _ _

theorem lb (rd : Reg) (address : Address) : Statement (.lb rd address) := opcode_encodeI _ _ _ _ _

theorem lh (rd : Reg) (address : Address) : Statement (.lh rd address) := opcode_encodeI _ _ _ _ _

theorem lw (rd : Reg) (address : Address) : Statement (.lw rd address) := opcode_encodeI _ _ _ _ _

theorem lbu (rd : Reg) (address : Address) : Statement (.lbu rd address) := opcode_encodeI _ _ _ _ _

theorem lhu (rd : Reg) (address : Address) : Statement (.lhu rd address) := opcode_encodeI _ _ _ _ _

theorem sb (rs : Reg) (address : Address) : Statement (.sb rs address) := opcode_encodeS _ _ _ _ _

theorem sh (rs : Reg) (address : Address) : Statement (.sh rs address) := opcode_encodeS _ _ _ _ _

theorem sw (rs : Reg) (address : Address) : Statement (.sw rs address) := opcode_encodeS _ _ _ _ _

theorem addi (rd : Reg) (rs1 : Reg) (imm : Word) : Statement (.addi rd rs1 imm) := opcode_encodeI _ _ _ _ _

theorem slti (rd : Reg) (rs1 : Reg) (imm : Word) : Statement (.slti rd rs1 imm) := opcode_encodeI _ _ _ _ _

theorem sltiu (rd : Reg) (rs1 : Reg) (imm : Word) : Statement (.sltiu rd rs1 imm) := opcode_encodeI _ _ _ _ _

theorem xori (rd : Reg) (rs1 : Reg) (imm : Word) : Statement (.xori rd rs1 imm) := opcode_encodeI _ _ _ _ _

theorem ori (rd : Reg) (rs1 : Reg) (imm : Word) : Statement (.ori rd rs1 imm) := opcode_encodeI _ _ _ _ _

theorem andi (rd : Reg) (rs1 : Reg) (imm : Word) : Statement (.andi rd rs1 imm) := opcode_encodeI _ _ _ _ _

theorem slli (rd : Reg) (rs1 : Reg) (imm : Word) : Statement (.slli rd rs1 imm) := opcode_encodeR _ _ _ _ _ _

theorem srli (rd : Reg) (rs1 : Reg) (imm : Word) : Statement (.srli rd rs1 imm) := opcode_encodeR _ _ _ _ _ _

theorem srai (rd : Reg) (rs1 : Reg) (imm : Word) : Statement (.srai rd rs1 imm) := opcode_encodeR _ _ _ _ _ _

theorem add (rd : Reg) (rs1 : Reg) (rs2 : Reg) : Statement (.add rd rs1 rs2) := opcode_encodeR _ _ _ _ _ _

theorem sub (rd : Reg) (rs1 : Reg) (rs2 : Reg) : Statement (.sub rd rs1 rs2) := opcode_encodeR _ _ _ _ _ _

theorem sll (rd : Reg) (rs1 : Reg) (rs2 : Reg) : Statement (.sll rd rs1 rs2) := opcode_encodeR _ _ _ _ _ _

theorem slt (rd : Reg) (rs1 : Reg) (rs2 : Reg) : Statement (.slt rd rs1 rs2) := opcode_encodeR _ _ _ _ _ _

theorem sltu (rd : Reg) (rs1 : Reg) (rs2 : Reg) : Statement (.sltu rd rs1 rs2) := opcode_encodeR _ _ _ _ _ _

theorem xor (rd : Reg) (rs1 : Reg) (rs2 : Reg) : Statement (.xor rd rs1 rs2) := opcode_encodeR _ _ _ _ _ _

theorem srl (rd : Reg) (rs1 : Reg) (rs2 : Reg) : Statement (.srl rd rs1 rs2) := opcode_encodeR _ _ _ _ _ _

theorem sra (rd : Reg) (rs1 : Reg) (rs2 : Reg) : Statement (.sra rd rs1 rs2) := opcode_encodeR _ _ _ _ _ _

theorem or (rd : Reg) (rs1 : Reg) (rs2 : Reg) : Statement (.or rd rs1 rs2) := opcode_encodeR _ _ _ _ _ _

theorem and (rd : Reg) (rs1 : Reg) (rs2 : Reg) : Statement (.and rd rs1 rs2) := opcode_encodeR _ _ _ _ _ _

end Sys2Proof.Laws.EncodedOpcode
end

