-- ==== Sys2Proof/Tests/Slice0.lean ====
section
/-! SUPPORT. Tests of the model on fixed values, and for every obligation with hypotheses a witness that they can be met.
The expected values are those of 95_test_vectors.md and of the worked examples in 30_encoding.md and 40 to 46; a comment
names the place. -/

namespace Sys2Proof.Tests

open Sys2Proof.Machine

/-! ### Helpers -/

/-- The reset state with a pc, some registers and some data bytes set. -/
def before (pc : Word) (regs : List (Reg × Word)) (bytes : List (Nat × Byte)) : State :=
  bytes.foldl (fun s e => s.putDmemByte e.1 e.2) (regs.foldl (fun s e => s.writeReg e.1 e.2) (State.reset.setPc pc))

/-- The label of a test. -/
def named (name : String) (h : name ≠ "" := by decide) : LabelName := ⟨name, h⟩

/-- One step of a word held where the pc points. -/
def stepWord (w : Nat) (s : State) : StepOutcome := step (s.withFetchWord 32 w)

/-- One step of a record held where the pc points. -/
def stepRecord (i : Instr) (s : State) : StepOutcome := step (s.putSlot (iTrans s.pc) (.record i))

/-- The pc and a register of the next state. -/
def pcAndReg (r : Reg) : StepOutcome → Option (Word × Word)
  | .next t => some (t.pc, t.readReg r)
  | .fault _ => none
  | .refused _ => none

/-- The data bytes of the next state, as listed. -/
def bytesAfter : StepOutcome → Option (List (Nat × Byte))
  | .next t => some t.dmem
  | .fault _ => none
  | .refused _ => none

/-- The error a step ends with. -/
def faultOf : StepOutcome → Option Fault
  | .next _ => none
  | .fault f => some f
  | .refused _ => none

/-- What a word decodes to. -/
def decodesTo (w : Word) (i : Instr) : Bool := decide (decode w = .ok i)

/-- Why a word decodes to nothing. -/
def rejectedAs (w : Word) (r : DecodeReject) : Bool := decide (decode w = .error r)

/-! ### WellFormed: each check refuses an ill-formed record (R94) -/

theorem test_wellFormed_upper : (Instr.lui 10#5 0xFFFFF#32).wellFormed = true ∧
    (Instr.lui 10#5 0x100000#32).wellFormed = false ∧ (Instr.auipc 10#5 0x100000#32).wellFormed = false := by decide

theorem test_wellFormed_immediate : (Instr.addi 10#5 11#5 2047#32).wellFormed = true ∧
    (Instr.addi 10#5 11#5 (-2048#32)).wellFormed = true ∧ (Instr.addi 10#5 11#5 2048#32).wellFormed = false ∧
    (Instr.addi 10#5 11#5 (-2049#32)).wellFormed = false ∧ (Instr.jalr 1#5 2#5 2048#32).wellFormed = false := by decide

theorem test_wellFormed_address : (Instr.lw 10#5 (Address.mk 2#5 (-2048#32))).wellFormed = true ∧
    (Instr.lw 10#5 (Address.mk 2#5 2048#32)).wellFormed = false ∧
    (Instr.sb 10#5 (Address.mk 2#5 (-2049#32))).wellFormed = false := by decide

theorem test_wellFormed_shift : (Instr.slli 10#5 11#5 31#32).wellFormed = true ∧
    (Instr.slli 10#5 11#5 32#32).wellFormed = false ∧ (Instr.srai 10#5 11#5 (-1#32)).wellFormed = false := by decide

theorem test_wellFormed_branchTarget : (Instr.beq 5#5 6#5 (.offset 4094#32)).wellFormed = true ∧
    (Instr.beq 5#5 6#5 (.offset (-4096#32))).wellFormed = true ∧
    (Instr.beq 5#5 6#5 (.offset 4096#32)).wellFormed = false ∧ (Instr.beq 5#5 6#5 (.offset 3#32)).wellFormed = false ∧
    (Instr.bgeu 5#5 6#5 (.offset (-4098#32))).wellFormed = false ∧
    (Instr.beq 5#5 6#5 (.label (named "L"))).wellFormed = false := by decide

theorem test_wellFormed_jalTarget : (Instr.jal 1#5 (.offset 1048574#32)).wellFormed = true ∧
    (Instr.jal 1#5 (.offset (-1048576#32))).wellFormed = true ∧
    (Instr.jal 1#5 (.offset 1048576#32)).wellFormed = false ∧ (Instr.jal 1#5 (.offset 3#32)).wellFormed = false ∧
    (Instr.jal 1#5 (.label (named "L"))).wellFormed = false := by decide

/-! ### The opcode table, as spec/opcode_table.json prints it (mnemonic, mask, match) -/

theorem test_opcodeTable_upperAndJumps : (opcodeRowsUpper ++ opcodeRowsJump).map (fun r => (r.mnemonic, r.mask, r.pattern)) =
    [ ("LUI", 0x0000007F#32, 0x00000037#32), ("AUIPC", 0x0000007F#32, 0x00000017#32),
      ("JAL", 0x0000007F#32, 0x0000006F#32), ("JALR", 0x0000707F#32, 0x00000067#32) ] := by decide

theorem test_opcodeTable_branches : opcodeRowsBranch.map (fun r => (r.mnemonic, r.mask, r.pattern)) =
    [ ("BEQ", 0x0000707F#32, 0x00000063#32), ("BNE", 0x0000707F#32, 0x00001063#32),
      ("BLT", 0x0000707F#32, 0x00004063#32), ("BGE", 0x0000707F#32, 0x00005063#32),
      ("BLTU", 0x0000707F#32, 0x00006063#32), ("BGEU", 0x0000707F#32, 0x00007063#32) ] := by decide

theorem test_opcodeTable_memory : (opcodeRowsLoad ++ opcodeRowsStore).map (fun r => (r.mnemonic, r.mask, r.pattern)) =
    [ ("LB", 0x0000707F#32, 0x00000003#32), ("LH", 0x0000707F#32, 0x00001003#32),
      ("LW", 0x0000707F#32, 0x00002003#32), ("LBU", 0x0000707F#32, 0x00004003#32),
      ("LHU", 0x0000707F#32, 0x00005003#32), ("SB", 0x0000707F#32, 0x00000023#32),
      ("SH", 0x0000707F#32, 0x00001023#32), ("SW", 0x0000707F#32, 0x00002023#32) ] := by decide

theorem test_opcodeTable_immediates : (opcodeRowsImmediate ++ opcodeRowsShiftImmediate).map (fun r => (r.mnemonic, r.mask, r.pattern)) =
    [ ("ADDI", 0x0000707F#32, 0x00000013#32), ("SLTI", 0x0000707F#32, 0x00002013#32),
      ("SLTIU", 0x0000707F#32, 0x00003013#32), ("XORI", 0x0000707F#32, 0x00004013#32),
      ("ORI", 0x0000707F#32, 0x00006013#32), ("ANDI", 0x0000707F#32, 0x00007013#32),
      ("SLLI", 0xFE00707F#32, 0x00001013#32), ("SRLI", 0xFE00707F#32, 0x00005013#32),
      ("SRAI", 0xFE00707F#32, 0x40005013#32) ] := by decide

theorem test_opcodeTable_registers : opcodeRowsRegister.map (fun r => (r.mnemonic, r.mask, r.pattern)) =
    [ ("ADD", 0xFE00707F#32, 0x00000033#32), ("SUB", 0xFE00707F#32, 0x40000033#32),
      ("SLL", 0xFE00707F#32, 0x00001033#32), ("SLT", 0xFE00707F#32, 0x00002033#32),
      ("SLTU", 0xFE00707F#32, 0x00003033#32), ("XOR", 0xFE00707F#32, 0x00004033#32),
      ("SRL", 0xFE00707F#32, 0x00005033#32), ("SRA", 0xFE00707F#32, 0x40005033#32),
      ("OR", 0xFE00707F#32, 0x00006033#32), ("AND", 0xFE00707F#32, 0x00007033#32) ] := by decide

theorem test_opcodeTable_length : opcodeTable.length = 37 := by decide

/-! ### Words written out bit by bit from the formats of 30_encoding.md Part 2 -/

-- U: imm[31:12] rd opcode
theorem test_bits_lui : decodesTo 0b10000000000000000001_01010_0110111#32 (.lui 10#5 0x80001#32) = true := by decide

-- J: imm[20] imm[10:1] imm[11] imm[19:12] rd opcode, for the offset 0x80802 = bits 19, 11, 1
theorem test_bits_jal : decodesTo 0b0_0000000001_1_10000000_00001_1101111#32 (.jal 1#5 (.offset 0x80802#32)) = true := by
  decide

-- I: imm[11:0] rs1 funct3 rd opcode
theorem test_bits_jalr : decodesTo 0b100000000001_00010_000_00001_1100111#32 (.jalr 1#5 2#5 (-2047#32)) = true := by decide

-- B: imm[12] imm[10:5] rs2 rs1 funct3 imm[4:1] imm[11] opcode, for the offset 0x822 = bits 11, 5, 1
theorem test_bits_bltu : decodesTo 0b0_000001_00110_00101_110_0001_1_1100011#32 (.bltu 5#5 6#5 (.offset 0x822#32)) = true := by
  decide

-- I, load
theorem test_bits_lhu : decodesTo 0b000000000101_00010_101_01011_0000011#32 (.lhu 11#5 (Address.mk 2#5 5#32)) = true := by
  decide

-- S: imm[11:5] rs2 rs1 funct3 imm[4:0] opcode
theorem test_bits_sh : decodesTo 0b1111111_01010_00000_001_11110_0100011#32 (.sh 10#5 (Address.mk 0#5 (-2#32))) = true := by
  decide

-- I, register-immediate
theorem test_bits_ori : decodesTo 0b000011110000_01011_110_01010_0010011#32 (.ori 10#5 11#5 0x0F0#32) = true := by decide

-- I, shift: funct7 shamt rs1 funct3 rd opcode
theorem test_bits_srai : decodesTo 0b0100000_11111_01011_101_01010_0010011#32 (.srai 10#5 11#5 31#32) = true := by decide

-- R: funct7 rs2 rs1 funct3 rd opcode
theorem test_bits_sra : decodesTo 0b0100000_01100_01011_101_01010_0110011#32 (.sra 10#5 11#5 12#5) = true := by decide

/-! ### A word for every constructor (the words of 95_test_vectors.md sections 2 and 3), read and written -/

/-- The word decodes to the record, and the record encodes to the word. -/
def wordOf (w : Word) (i : Instr) : Bool := decodesTo w i && decide (encode i = some w)

theorem test_word_lui : wordOf 0xFFFFF537#32 (.lui 10#5 0xFFFFF#32) = true := by decide
theorem test_word_auipc : wordOf 0x00001517#32 (.auipc 10#5 1#32) = true := by decide
theorem test_word_jal : wordOf 0xFFDFF06F#32 (.jal 0#5 (.offset (-4#32))) = true := by decide
theorem test_word_jalr : wordOf 0x7FF100E7#32 (.jalr 1#5 2#5 2047#32) = true := by decide
theorem test_word_beq : wordOf 0x80000063#32 (.beq 0#5 0#5 (.offset (-4096#32))) = true := by decide
theorem test_word_bne : wordOf 0xFE059CE3#32 (.bne 11#5 0#5 (.offset (-8#32))) = true := by decide
theorem test_word_blt : wordOf 0x0062C463#32 (.blt 5#5 6#5 (.offset 8#32)) = true := by decide
theorem test_word_bge : wordOf 0x0062D463#32 (.bge 5#5 6#5 (.offset 8#32)) = true := by decide
theorem test_word_bltu : wordOf 0x0062E463#32 (.bltu 5#5 6#5 (.offset 8#32)) = true := by decide
theorem test_word_bgeu : wordOf 0x0062F463#32 (.bgeu 5#5 6#5 (.offset 8#32)) = true := by decide
theorem test_word_lb : wordOf 0xFFF00503#32 (.lb 10#5 (Address.mk 0#5 (-1#32))) = true := by decide
theorem test_word_lh : wordOf 0x00511583#32 (.lh 11#5 (Address.mk 2#5 5#32)) = true := by decide
theorem test_word_lw : wordOf 0x7FF12503#32 (.lw 10#5 (Address.mk 2#5 2047#32)) = true := by decide
theorem test_word_lbu : wordOf 0x00414583#32 (.lbu 11#5 (Address.mk 2#5 4#32)) = true := by decide
theorem test_word_lhu : wordOf 0xFFF05503#32 (.lhu 10#5 (Address.mk 0#5 (-1#32))) = true := by decide
theorem test_word_sb : wordOf 0xFEA00FA3#32 (.sb 10#5 (Address.mk 0#5 (-1#32))) = true := by decide
theorem test_word_sh : wordOf 0x00A113A3#32 (.sh 10#5 (Address.mk 2#5 7#32)) = true := by decide
theorem test_word_sw : wordOf 0xFEA02F23#32 (.sw 10#5 (Address.mk 0#5 (-2#32))) = true := by decide
theorem test_word_addi : wordOf 0xFFF58593#32 (.addi 11#5 11#5 (-1#32)) = true := by decide
theorem test_word_slti : wordOf 0x8005A513#32 (.slti 10#5 11#5 (-2048#32)) = true := by decide
theorem test_word_sltiu : wordOf 0x7FF5B513#32 (.sltiu 10#5 11#5 2047#32) = true := by decide
theorem test_word_xori : wordOf 0xFFF5C513#32 (.xori 10#5 11#5 (-1#32)) = true := by decide
theorem test_word_ori : wordOf 0x8005E513#32 (.ori 10#5 11#5 (-2048#32)) = true := by decide
theorem test_word_andi : wordOf 0x0FF5F513#32 (.andi 10#5 11#5 255#32) = true := by decide
theorem test_word_slli : wordOf 0x01F59513#32 (.slli 10#5 11#5 31#32) = true := by decide
theorem test_word_srli : wordOf 0x0035D513#32 (.srli 10#5 11#5 3#32) = true := by decide
theorem test_word_srai : wordOf 0x41F5D513#32 (.srai 10#5 11#5 31#32) = true := by decide
theorem test_word_add : wordOf 0x00C58533#32 (.add 10#5 11#5 12#5) = true := by decide
theorem test_word_sub : wordOf 0x40C58533#32 (.sub 10#5 11#5 12#5) = true := by decide
theorem test_word_sll : wordOf 0x00C59533#32 (.sll 10#5 11#5 12#5) = true := by decide
theorem test_word_slt : wordOf 0x00C5A533#32 (.slt 10#5 11#5 12#5) = true := by decide
theorem test_word_sltu : wordOf 0x00C5B533#32 (.sltu 10#5 11#5 12#5) = true := by decide
theorem test_word_xor : wordOf 0x00C5C533#32 (.xor 10#5 11#5 12#5) = true := by decide
theorem test_word_srl : wordOf 0x00C5D533#32 (.srl 10#5 11#5 12#5) = true := by decide
theorem test_word_sra : wordOf 0x40C5D533#32 (.sra 10#5 11#5 12#5) = true := by decide
theorem test_word_or : wordOf 0x00C5E533#32 (.or 10#5 11#5 12#5) = true := by decide
theorem test_word_and : wordOf 0x00C5F533#32 (.and 10#5 11#5 12#5) = true := by decide

/-! ### Words outside the table (95_test_vectors.md section 3) -/

theorem test_reject_majorOpcode : [0x00000000#32, 0xFFFFFFFF#32, 0x0FF0000F#32, 0x0000100F#32, 0x00000073#32, 0x00100073#32,
    0x30200073#32, 0xC0002573#32, 0x00C5853B#32, 0x0005051B#32, 0x00004501#32].all
    (fun w => rejectedAs w .unusedMajorOpcode) = true := by decide

theorem test_reject_funct3 : [0x00009067#32, 0x00002063#32, 0x00003063#32, 0x00013583#32, 0x00016583#32, 0x00017583#32,
    0x00A13023#32, 0x00A14023#32].all (fun w => rejectedAs w .unusedFunct3) = true := by decide

theorem test_reject_funct7 : [0x02059513#32, 0x40059513#32, 0x8005D513#32, 0x40C59533#32, 0x02C58533#32].all
    (fun w => rejectedAs w .unusedFunct7) = true := by decide

/-! ### The host's two functions -/

theorem test_decodeTableWord : decodeTableWord 32 0xFE059CE3 = some (.bne 11#5 0#5 (.offset (-8#32))) ∧
    decodeTableWord 32 0x00000073 = none := by decide

theorem test_withFetchWord : pcAndReg 10#5 (stepWord 0x00500513 State.reset) = some (4#32, 5#32) ∧
    (State.reset.withFetchWord 32 0x00500513).regs = State.reset.regs := by decide

/-! ### One step of each instruction (95_test_vectors.md section 2) -/

theorem test_lui_top : pcAndReg 10#5 (stepWord 0xFFFFF537 (before 0#32 [] [])) =
    some (4#32, 0xFFFFF000#32) := by decide

theorem test_lui_masks_its_immediate : pcAndReg 10#5 (stepRecord (.lui 10#5 0x100001#32) (before 0#32 [] [])) =
    some (4#32, 0x00001000#32) := by decide

theorem test_auipc_wraps : pcAndReg 10#5 (stepWord 0x00001517 (before 0xFFFFF004#32 [] [])) =
    some (0xFFFFF008#32, 0x00000004#32) := by decide

theorem test_auipc_keeps_the_high_pc_bits : pcAndReg 10#5 (stepWord 0x00000517 (before 0x00001000#32 [] [])) =
    some (0x00001004#32, 0x00001000#32) := by decide

theorem test_jal_wraps : pcAndReg 1#5 (stepWord 0x008000EF (before 0xFFFFFFFC#32 [(1#5, 0x55#32)] [])) =
    some (0x00000004#32, 0x00000000#32) := by decide

theorem test_jal_label : pcAndReg 1#5 (stepRecord (.jal 1#5 (.label (named "L"))) ((before 0x1010#32 [] []).bindLabel (named "L") 100#32)) =
    some (100#32, 0x1014#32) ∧
    faultOf (stepRecord (.jal 1#5 (.label (named "L"))) (before 0x20#32 [] [])) = some (.unknownLabel (named "L")) := by decide

theorem test_jalr_reads_the_base_first : pcAndReg 1#5 (stepWord 0x000080E7 (before 0x10#32 [(1#5, 0x40#32)] [])) =
    some (0x40#32, 0x14#32) := by decide

theorem test_jalr_clears_bit_0 : pcAndReg 5#5 (stepWord 0x002302E7 (before 0#32 [(6#5, 0xFFFFFFFF#32)] [])) =
    some (0#32, 4#32) := by decide

theorem test_beq_equal : pcAndReg 0#5 (stepWord 0x00628463 (before 0x100#32 [(5#5, 0x80000000#32), (6#5, 0x80000000#32)] [])) =
    some (0x108#32, 0#32) := by decide

theorem test_beq_unequal : pcAndReg 0#5 (stepWord 0x00628463 (before 0x100#32 [(5#5, 0#32), (6#5, 0x80000000#32)] [])) =
    some (0x104#32, 0#32) := by decide

theorem test_bne_unequal : pcAndReg 0#5 (stepWord 0x00629463 (before 0x100#32 [(5#5, 0#32), (6#5, 0x80000000#32)] [])) =
    some (0x108#32, 0#32) := by decide

theorem test_bne_equal : pcAndReg 0#5 (stepWord 0x00629463 (before 0x100#32 [(5#5, 5#32), (6#5, 5#32)] [])) =
    some (0x104#32, 0#32) := by decide

theorem test_blt_minus_one_below_one : pcAndReg 0#5 (stepWord 0x0062C463 (before 0x100#32 [(5#5, 0xFFFFFFFF#32), (6#5, 1#32)] [])) =
    some (0x108#32, 0#32) := by decide

theorem test_blt_equal : pcAndReg 0#5 (stepWord 0x0062C463 (before 0x100#32 [(5#5, 5#32), (6#5, 5#32)] [])) =
    some (0x104#32, 0#32) := by decide

theorem test_bge_equal : pcAndReg 0#5 (stepWord 0x0062D463 (before 0x100#32 [(5#5, 5#32), (6#5, 5#32)] [])) =
    some (0x108#32, 0#32) := by decide

theorem test_bge_least_below_greatest : pcAndReg 0#5 (stepWord 0x0062D463 (before 0x100#32 [(5#5, 0x80000000#32), (6#5, 0x7FFFFFFF#32)] [])) =
    some (0x104#32, 0#32) := by decide

theorem test_bltu_zero_below_2_31 : pcAndReg 0#5 (stepWord 0x0062E463 (before 0x100#32 [(5#5, 0#32), (6#5, 0x80000000#32)] [])) =
    some (0x108#32, 0#32) := by decide

theorem test_bltu_all_ones_above_one : pcAndReg 0#5 (stepWord 0x0062E463 (before 0x100#32 [(5#5, 0xFFFFFFFF#32), (6#5, 1#32)] [])) =
    some (0x104#32, 0#32) := by decide

theorem test_bgeu_equal : pcAndReg 0#5 (stepWord 0x0062F463 (before 0x100#32 [(5#5, 0#32), (6#5, 0#32)] [])) =
    some (0x108#32, 0#32) := by decide

theorem test_bgeu_one_below_all_ones : pcAndReg 0#5 (stepWord 0x0062F463 (before 0x100#32 [(5#5, 1#32), (6#5, 0xFFFFFFFF#32)] [])) =
    some (0x104#32, 0#32) := by decide

theorem test_branch_label : faultOf (stepRecord (.beq 0#5 0#5 (.label (named "L"))) (before 8#32 [] [])) = some (.unknownLabel (named "L")) ∧
    pcAndReg 0#5 (stepRecord (.beq 5#5 0#5 (.label (named "L"))) (before 8#32 [(5#5, 1#32)] [])) = some (12#32, 0#32) := by decide

theorem test_lb_negative : pcAndReg 11#5 (stepWord 0x00410583 (before 0#32 [(2#5, 0x100#32)] [(0x104, 0x80#8), (0x105, 0x92#8), (0x106, 0x34#8), (0x107, 0x12#8), (0x108, 0x7F#8)])) =
    some (4#32, 0xFFFFFF80#32) := by decide

theorem test_lb_at_the_top : pcAndReg 10#5 (stepWord 0xFFF00503 (before 0#32 [] [(0x3FFF, 0xFE#8)])) =
    some (4#32, 0xFFFFFFFE#32) := by decide

theorem test_lh_negative : pcAndReg 11#5 (stepWord 0x00411583 (before 0#32 [(2#5, 0x100#32)] [(0x104, 0x80#8), (0x105, 0x92#8), (0x106, 0x34#8), (0x107, 0x12#8), (0x108, 0x7F#8)])) =
    some (4#32, 0xFFFF9280#32) := by decide

theorem test_lh_misaligned : pcAndReg 11#5 (stepWord 0x00711583 (before 0#32 [(2#5, 0x100#32)] [(0x104, 0x80#8), (0x105, 0x92#8), (0x106, 0x34#8), (0x107, 0x12#8), (0x108, 0x7F#8)])) =
    some (4#32, 0x00007F12#32) := by decide

theorem test_lw_wraps : pcAndReg 10#5 (stepWord 0xFFE02503 (before 0#32 [] [(0, 0xCC#8), (1, 0xDD#8), (0x3FFE, 0xAA#8), (0x3FFF, 0xBB#8)])) =
    some (4#32, 0xDDCCBBAA#32) := by decide

theorem test_lbu : pcAndReg 11#5 (stepWord 0x00414583 (before 0#32 [(2#5, 0x100#32)] [(0x104, 0x80#8), (0x105, 0x92#8), (0x106, 0x34#8), (0x107, 0x12#8), (0x108, 0x7F#8)])) =
    some (4#32, 0x80#32) := by decide

theorem test_lw_into_its_base : pcAndReg 10#5 (stepWord 0x00052503 (before 0#32 [(10#5, 0x4104#32)] [(0x104, 0x80#8), (0x105, 0x92#8), (0x106, 0x34#8), (0x107, 0x12#8), (0x108, 0x7F#8)])) =
    some (4#32, 0x12349280#32) := by decide

theorem test_lhu : pcAndReg 11#5 (stepWord 0x00415583 (before 0#32 [(2#5, 0x100#32)] [(0x104, 0x80#8), (0x105, 0x92#8), (0x106, 0x34#8), (0x107, 0x12#8), (0x108, 0x7F#8)])) =
    some (4#32, 0x9280#32) := by decide

theorem test_lhu_wraps : pcAndReg 10#5 (stepWord 0xFFF05503 (before 0#32 [] [(0, 0xCC#8), (0x3FFF, 0xBB#8)])) =
    some (4#32, 0xCCBB#32) := by decide

theorem test_sb : bytesAfter (stepWord 0x00A10223 (before 0#32 [(10#5, 0x12345678#32), (2#5, 0x100#32)] [(0x104, 0xEE#8), (0x105, 0xEE#8), (0x106, 0xEE#8), (0x107, 0xEE#8), (0x108, 0xEE#8)])) =
    some [(0x104, 0x78#8), (0x105, 0xEE#8), (0x106, 0xEE#8), (0x107, 0xEE#8), (0x108, 0xEE#8)] := by decide

theorem test_sb_at_the_top : bytesAfter (stepWord 0xFEA00FA3 (before 0#32 [(10#5, 0xDDCCBBAA#32)] [])) =
    some [(0x3FFF, 0xAA#8)] := by decide

theorem test_sh : bytesAfter (stepWord 0x00A11223 (before 0#32 [(10#5, 0x12345678#32), (2#5, 0x100#32)] [(0x104, 0xEE#8), (0x105, 0xEE#8), (0x106, 0xEE#8), (0x107, 0xEE#8), (0x108, 0xEE#8)])) =
    some [(0x104, 0x78#8), (0x105, 0x56#8), (0x106, 0xEE#8), (0x107, 0xEE#8), (0x108, 0xEE#8)] := by decide

theorem test_sh_wraps : bytesAfter (stepWord 0xFEA01FA3 (before 0#32 [(10#5, 0xDDCCBBAA#32)] [])) =
    some [(0, 0xBB#8), (0x3FFF, 0xAA#8)] := by decide

theorem test_sw : bytesAfter (stepWord 0x00A12223 (before 0#32 [(10#5, 0x12345678#32), (2#5, 0x100#32)] [(0x104, 0xEE#8), (0x105, 0xEE#8), (0x106, 0xEE#8), (0x107, 0xEE#8), (0x108, 0xEE#8)])) =
    some [(0x104, 0x78#8), (0x105, 0x56#8), (0x106, 0x34#8), (0x107, 0x12#8), (0x108, 0xEE#8)] := by decide

theorem test_sw_wraps : bytesAfter (stepWord 0xFEA02F23 (before 0#32 [(10#5, 0xDDCCBBAA#32)] [])) =
    some [(0, 0xCC#8), (1, 0xDD#8), (0x3FFE, 0xAA#8), (0x3FFF, 0xBB#8)] := by decide

theorem test_addi : pcAndReg 10#5 (stepWord 0xFFF58513 (before 0#32 [(10#5, 0xAAAAAAAA#32), (11#5, 0#32)] [])) =
    some (4#32, 0xFFFFFFFF#32) := by decide

theorem test_addi_beyond_12_bits : pcAndReg 10#5 (stepRecord (.addi 10#5 11#5 4096#32) (before 0#32 [(10#5, 0xAAAAAAAA#32), (11#5, 1#32)] [])) =
    some (4#32, 4097#32) := by decide

theorem test_slti_less : pcAndReg 10#5 (stepWord 0xFFF5A513 (before 0#32 [(10#5, 0xAAAAAAAA#32), (11#5, 0x80000000#32)] [])) =
    some (4#32, 1#32) := by decide

theorem test_slti_equal : pcAndReg 10#5 (stepWord 0x7FF5A513 (before 0#32 [(10#5, 0xAAAAAAAA#32), (11#5, 0x7FF#32)] [])) =
    some (4#32, 0#32) := by decide

theorem test_sltiu_less : pcAndReg 10#5 (stepWord 0xFFF5B513 (before 0#32 [(10#5, 0xAAAAAAAA#32), (11#5, 0xFFFFFFFE#32)] [])) =
    some (4#32, 1#32) := by decide

theorem test_sltiu_high_operand : pcAndReg 10#5 (stepWord 0x7FF5B513 (before 0#32 [(10#5, 0xAAAAAAAA#32), (11#5, 0x80000000#32)] [])) =
    some (4#32, 0#32) := by decide

theorem test_xori : pcAndReg 10#5 (stepWord 0x7FF5C513 (before 0#32 [(10#5, 0xAAAAAAAA#32), (11#5, 0x0F0F0F0F#32)] [])) =
    some (4#32, 0x0F0F08F0#32) := by decide

theorem test_xori_minus_one : pcAndReg 10#5 (stepWord 0xFFF5C513 (before 0#32 [(10#5, 0xAAAAAAAA#32), (11#5, 0x0F0F0F0F#32)] [])) =
    some (4#32, 0xF0F0F0F0#32) := by decide

theorem test_ori : pcAndReg 10#5 (stepWord 0x0F05E513 (before 0#32 [(10#5, 0xAAAAAAAA#32), (11#5, 0xF00#32)] [])) =
    some (4#32, 0xFF0#32) := by decide

theorem test_ori_sign_extends : pcAndReg 10#5 (stepWord 0x8005E513 (before 0#32 [(10#5, 0xAAAAAAAA#32), (11#5, 1#32)] [])) =
    some (4#32, 0xFFFFF801#32) := by decide

theorem test_andi : pcAndReg 10#5 (stepWord 0x0FF5F513 (before 0#32 [(10#5, 0xAAAAAAAA#32), (11#5, 0x12345678#32)] [])) =
    some (4#32, 0x78#32) := by decide

theorem test_andi_sign_extends : pcAndReg 10#5 (stepWord 0xFF05F513 (before 0#32 [(10#5, 0xAAAAAAAA#32), (11#5, 0x12345678#32)] [])) =
    some (4#32, 0x12345670#32) := by decide

theorem test_slli : pcAndReg 10#5 (stepWord 0x00359513 (before 0#32 [(10#5, 0xAAAAAAAA#32), (11#5, 0x80000001#32)] [])) =
    some (4#32, 8#32) := by decide

theorem test_slli_by_33 : pcAndReg 10#5 (stepRecord (.slli 10#5 11#5 33#32) (before 0#32 [(10#5, 0xAAAAAAAA#32), (11#5, 1#32)] [])) =
    some (4#32, 2#32) := by decide

theorem test_srli : pcAndReg 10#5 (stepWord 0x0035D513 (before 0#32 [(10#5, 0xAAAAAAAA#32), (11#5, 0x80000001#32)] [])) =
    some (4#32, 0x10000000#32) := by decide

theorem test_srli_by_31 : pcAndReg 10#5 (stepWord 0x01F5D513 (before 0#32 [(10#5, 0xAAAAAAAA#32), (11#5, 0x80000001#32)] [])) =
    some (4#32, 1#32) := by decide

theorem test_srai : pcAndReg 10#5 (stepWord 0x4035D513 (before 0#32 [(10#5, 0xAAAAAAAA#32), (11#5, 0x80000001#32)] [])) =
    some (4#32, 0xF0000000#32) := by decide

theorem test_srai_positive : pcAndReg 10#5 (stepWord 0x4015D513 (before 0#32 [(10#5, 0xAAAAAAAA#32), (11#5, 0x7FFFFFFE#32)] [])) =
    some (4#32, 0x3FFFFFFF#32) := by decide

theorem test_add : pcAndReg 10#5 (stepWord 0x00C58533 (before 0#32 [(10#5, 0xAAAAAAAA#32), (11#5, 0xFFFFFFFF#32), (12#5, 2#32)] [])) =
    some (4#32, 1#32) := by decide

theorem test_add_to_itself : pcAndReg 10#5 (stepWord 0x00A50533 (before 0#32 [(10#5, 0x80000001#32)] [])) =
    some (4#32, 2#32) := by decide

theorem test_sub : pcAndReg 10#5 (stepWord 0x40C58533 (before 0#32 [(10#5, 0xAAAAAAAA#32), (11#5, 3#32), (12#5, 5#32)] [])) =
    some (4#32, 0xFFFFFFFE#32) := by decide

theorem test_sub_least : pcAndReg 10#5 (stepWord 0x40C58533 (before 0#32 [(10#5, 0xAAAAAAAA#32), (11#5, 0x80000000#32), (12#5, 0xFFFFFFFF#32)] [])) =
    some (4#32, 0x80000001#32) := by decide

theorem test_sll_by_33 : pcAndReg 10#5 (stepWord 0x00C59533 (before 0#32 [(10#5, 0xAAAAAAAA#32), (11#5, 0x40000001#32), (12#5, 0x21#32)] [])) =
    some (4#32, 0x80000002#32) := by decide

theorem test_sll_by_32 : pcAndReg 10#5 (stepWord 0x00C59533 (before 0#32 [(10#5, 0xAAAAAAAA#32), (11#5, 1#32), (12#5, 0x20#32)] [])) =
    some (4#32, 1#32) := by decide

theorem test_slt_negative : pcAndReg 10#5 (stepWord 0x00C5A533 (before 0#32 [(10#5, 0xAAAAAAAA#32), (11#5, 0x80000000#32), (12#5, 0xFFFFFFFF#32)] [])) =
    some (4#32, 1#32) := by decide

theorem test_slt_greater : pcAndReg 10#5 (stepWord 0x00C5A533 (before 0#32 [(10#5, 0xAAAAAAAA#32), (11#5, 0x7FFFFFFF#32), (12#5, 1#32)] [])) =
    some (4#32, 0#32) := by decide

theorem test_sltu_less : pcAndReg 10#5 (stepWord 0x00C5B533 (before 0#32 [(10#5, 0xAAAAAAAA#32), (11#5, 0x80000000#32), (12#5, 0xFFFFFFFF#32)] [])) =
    some (4#32, 1#32) := by decide

theorem test_sltu_all_ones : pcAndReg 10#5 (stepWord 0x00C5B533 (before 0#32 [(10#5, 0xAAAAAAAA#32), (11#5, 0xFFFFFFFF#32), (12#5, 2#32)] [])) =
    some (4#32, 0#32) := by decide

theorem test_xor : pcAndReg 10#5 (stepWord 0x00C5C533 (before 0#32 [(10#5, 0xAAAAAAAA#32), (11#5, 0xFF00FF00#32), (12#5, 0x0FF00FF0#32)] [])) =
    some (4#32, 0xF0F0F0F0#32) := by decide

theorem test_srl : pcAndReg 10#5 (stepWord 0x00C5D533 (before 0#32 [(10#5, 0xAAAAAAAA#32), (11#5, 0x80000001#32), (12#5, 0x21#32)] [])) =
    some (4#32, 0x40000000#32) := by decide

theorem test_srl_by_31 : pcAndReg 10#5 (stepWord 0x00C5D533 (before 0#32 [(10#5, 0xAAAAAAAA#32), (11#5, 0x80000000#32), (12#5, 0xFFFFFFFF#32)] [])) =
    some (4#32, 1#32) := by decide

theorem test_sra : pcAndReg 10#5 (stepWord 0x40C5D533 (before 0#32 [(10#5, 0xAAAAAAAA#32), (11#5, 0x80000001#32), (12#5, 0x21#32)] [])) =
    some (4#32, 0xC0000000#32) := by decide

theorem test_sra_by_31 : pcAndReg 10#5 (stepWord 0x40C5D533 (before 0#32 [(10#5, 0xAAAAAAAA#32), (11#5, 0x80000000#32), (12#5, 0xFFFFFFFF#32)] [])) =
    some (4#32, 0xFFFFFFFF#32) := by decide

theorem test_or : pcAndReg 10#5 (stepWord 0x00C5E533 (before 0#32 [(10#5, 0xAAAAAAAA#32), (11#5, 0xFF00FF00#32), (12#5, 0x0FF00FF0#32)] [])) =
    some (4#32, 0xFFF0FFF0#32) := by decide

theorem test_and : pcAndReg 10#5 (stepWord 0x00C5F533 (before 0#32 [(10#5, 0xAAAAAAAA#32), (11#5, 0xFF00FF00#32), (12#5, 0x0FF00FF0#32)] [])) =
    some (4#32, 0x0F000F00#32) := by decide

/-! ### Register 0, empty slots and the sparse memory -/

-- 95_test_vectors.md S1: explicit attempts to write register 0
theorem test_x0 : [0x00001037, 0x00158013, 0x00412003, 0x00C58033].all
    (fun w => pcAndReg 0#5 (stepWord w (before 0#32 [(11#5, 1#32), (2#5, 0x100#32)] [(0x104, 9#8)])) == some (4#32, 0#32)) =
      true := by decide

-- R236: the step that fetches an empty slot
theorem test_empty_slot : faultOf (step State.reset) = some .invalidOpcode ∧
    faultOf (stepWord 0x00000073 State.reset) = some .invalidOpcode := by decide

theorem test_memory_canonical : (State.reset.putDmemByte 7 1#8).dmem = [(7, 1#8)] ∧
    ((State.reset.putDmemByte 7 1#8).putDmemByte 3 2#8).dmem = [(3, 2#8), (7, 1#8)] ∧
    ((State.reset.putDmemByte 7 1#8).putDmemByte 7 0#8).dmem = [] := by decide

-- R67: sw of 0x11223344 to 0x10, sb of 0xAB to 0x11, then lw 0x10, lhu 0x11, lb 0x11, lw 0x0E
theorem test_mixed_widths :
    ([(0x10#32, AccessSize.four), (0x11#32, .two), (0x0E#32, .four)].map
      (fun p => ((State.reset.memWrite 0x10#32 .four 0x11223344#32).memWrite 0x11#32 .one 0xAB#32).memRead p.1 p.2)) =
      [0x1122AB44#32, 0x22AB#32, 0xAB440000#32] := by decide

/-! ### Loading, operand construction and the driver (95_test_vectors.md section 5) -/

-- `a:` `b:` `addi a0, zero, 1` `c:`
theorem test_load_labels : (loadProgram [.label (named "a"), .label (named "b"), .instruction (.addi 10#5 0#5 1#32), .label (named "c")]).map
    (fun s => (s.labels, s.imem)) =
    .ok ([(named "a", 0#32), (named "b", 0#32), (named "c", 4#32)], [(0, .record (.addi 10#5 0#5 1#32))]) := by decide

-- P9: the last declaration wins
theorem test_load_duplicate_label : (loadProgram [.label (named "x"), .instruction (.addi 10#5 0#5 1#32),
    .instruction (.jal 0#5 (.label (named "x"))), .label (named "x")]).map (fun s => s.labels) = .ok [(named "x", 8#32)] := by decide

theorem test_load_too_large : loadLines [.instruction (.addi 10#5 0#5 1#32)] 4096 State.reset =
    .error (.programTooLarge 4096) ∧
    (loadLines [.label (named "end")] 4096 State.reset).map (fun s => s.labelAddress (named "end")) = .ok (some 0x1000#32) := by decide

-- R54: little-endian, and a byte image that ends within a word
theorem test_byte_image : wordsOfBytes [0x13#8, 0x05#8, 0x50#8, 0x00#8] = some [0x00500513#32] ∧
    wordsOfBytes [0x13#8, 0x05#8, 0x50#8] = none := by decide

theorem test_register_names : constructRegister "a0" = .ok 10#5 ∧ constructRegister "fp" = .ok 8#5 ∧
    ["A0", "r1", "a8", "s12", ""].all (fun t => constructRegister t == .error (.error (.invalidRegisterName t))) = true ∧
    constructRegister "x10" = .error (.refused (.numericRegisterName "x10")) := by decide

theorem test_signed_literals : constructSigned "5" = .ok 5#32 ∧ constructSigned "-1" = .ok (-1#32) ∧
    constructSigned "0x7FF" = .ok 2047#32 ∧ constructSigned "4096" = .ok 4096#32 ∧
    ["12a", "0xZZ", "--1", "", "99999999999"].all
      (fun t => constructSigned t == .error (.error (.invalidNumericLiteral t))) = true ∧
    constructSigned "0x80000000" = .error (.refused (.unsettledHexLiteral "0x80000000")) := by decide

theorem test_unsigned_literals : constructUnsigned "0x12345" = .ok 0x12345#32 ∧
    constructUnsigned "-1" = .error (.error (.invalidNumericLiteral "-1")) := by decide

-- the first lines of P1 and an unknown mnemonic
theorem test_assemble : assemble [.instruction "addi" [.register "a0", .register "zero", .literal "5"],
    .instruction "sw" [.register "a0", .address "0" "sp"], .instruction "jal" [.register "zero", .name "end"], .label "end"] =
    .ok [.instruction (.addi 10#5 0#5 5#32), .instruction (.sw 10#5 (Address.mk 2#5 0#32)),
      .instruction (.jal 0#5 (.label (named "end"))), .label (named "end")] ∧
    assemble [.instruction "mul" []] = .error (.refused (.unknownMnemonic "mul")) ∧
    assemble [.instruction "add" []] = .error (.refused (.operandMismatch "add")) ∧
    assemble [.label "a0"] = .error (.refused (.unsettledLabelName "a0")) ∧
    assemble [.label ""] = .error (.refused (.unsettledLabelName "")) ∧
    assemble [.label "x10"] = .error (.refused (.unsettledLabelName "x10")) := by decide

/-- A session whose machine is loaded with one instruction. -/
def loadedSession : Session := (Session.request { phase := .fresh, state := State.reset } (.loadImage [0x00500513#32])).1

theorem test_driver : loadedSession.phase = .loaded ∧ (loadedSession.request .step).2 = .ok ∧
    ((loadedSession.request .step).1.request .step).2 = .error .invalidOpcode ∧
    (loadedSession.request (.loadImage [])).2 = .notAllowed ∧
    (Session.request { phase := .fresh, state := State.reset } .step).2 = .notAllowed := by decide

/-! ### Witnesses: the hypotheses of each obligation can be met -/

/-- A word of each named row wordIn its mask and pattern. -/
def wordIn (w mask pattern : Word) : Bool := w &&& mask == pattern

/-- The step answers this next state. -/
def nextIs (o : StepOutcome) (t : State) : Bool :=
  match o with
  | .next u => decide (u = t)
  | .fault _ => false
  | .refused _ => false

theorem eq_next {o : StepOutcome} {t : State} (h : nextIs o t = true) : o = .next t := by
  cases o <;> simp_all [nextIs]

theorem eq_fault {o : StepOutcome} {f : Fault} (h : faultOf o = some f) : o = .fault f := by
  cases o <;> simp_all [faultOf]

theorem witness_RegistersReadWhatWasWritten : (1#5 : Reg) ≠ 0#5 ∧ (31#5 : Reg) ≠ 0#5 ∧ (31#5 : Reg) ≠ 1#5 ∧
    ((State.reset.writeReg 31#5 7#32).writeReg 1#5 5#32).readReg 31#5 = 7#32 := by decide

theorem witness_StepRunsTheFetchedInstruction :
    (State.reset.putSlot 0 (.record (.lui 10#5 1#32))).slotHold (State.reset.pc.toNat % imemBytes / 4) =
      .record (.lui 10#5 1#32) ∧
    (before 0x1FFC#32 [] []).pc.toNat % imemBytes / 4 = 1023 ∧
    (State.reset.putSlot 0 (.word 0x00001537#32)).slotHold (State.reset.pc.toNat % imemBytes / 4) = .word 0x00001537#32 ∧
    decode 0x00001537#32 = .ok (.lui 10#5 1#32) := by decide

theorem witness_EmptySlotRaisesInvalidOpcode : step State.reset = .fault .invalidOpcode ∧
    (State.reset.withFetchWord 32 0x13).slot (State.reset.pc.toNat % imemBytes / 4) ≠ .empty :=
  ⟨eq_fault (by decide), by decide⟩

theorem witness_StepHasThreeOutcomes : step State.reset = .fault .invalidOpcode ∧
    stepRecord (.jal 1#5 (.label (named "L"))) State.reset = .fault (.unknownLabel (named "L")) :=
  ⟨eq_fault (by decide), eq_fault (by decide)⟩

theorem witness_UnknownLabelOnlyFromTakenUnboundLabels :
    step (State.reset.putSlot 0 (.record (.jal 1#5 (.label (named "L"))))) = .fault (.unknownLabel (named "L")) ∧
    (State.reset.putSlot 0 (.word 0xFFFFFFFF#32)).slotHold (State.reset.pc.toNat % imemBytes / 4) = .word 0xFFFFFFFF#32 ∧
    (loadProgram [.label (named "L")]).toOption = some (State.reset.bindLabel (named "L") 0#32) ∧
    ProgramLine.label (named "L") ∈ [ProgramLine.label (named "L")] := ⟨eq_fault (by decide), by decide⟩

/-- A store into the last data byte, held in slot 0. -/
def storing : State := (before 0#32 [(10#5, 0xAA#32)] [(0x3FFF, 9#8), (5, 6#8)]).withFetchWord 32 0xFEA00FA3

theorem witness_StepKeepsCanonicalForm : storing.wf ∧
    step storing = .next ((storing.putDmemByte 0x3FFF 0xAA#8).setPc 4#32) := ⟨by decide, eq_next (by decide)⟩

theorem witness_StepNeverWritesInstructionMemoryOrLabels :
    step storing = .next ((storing.putDmemByte 0x3FFF 0xAA#8).setPc 4#32) := eq_next (by decide)

theorem witness_OnlyStoresChangeDataMemory :
    step storing = .next ((storing.putDmemByte 0x3FFF 0xAA#8).setPc 4#32) ∧
    ((storing.putDmemByte 0x3FFF 0xAA#8).setPc 4#32).dmemByte 0x3FFF ≠ storing.dmemByte 0x3FFF :=
  ⟨eq_next (by decide), by decide⟩

/-- Two states that differ in x5 and in the slots only. -/
def differing : State × State := (before 0#32 [(5#5, 1#32), (11#5, 3#32)] [], (before 0#32 [(11#5, 3#32)] []).putSlot 1 (.word 0x13#32))

theorem witness_RegistersReadAndWrittenByFamily :
    exec (.add 10#5 11#5 0#5) differing.1 = .next ((differing.1.writeReg 10#5 3#32).setPc 4#32) ∧
    (Instr.add 10#5 11#5 0#5).destination ≠ some 31#5 ∧ differing.1 ≠ differing.2 ∧ differing.1.pc = differing.2.pc ∧
    differing.1.dmem = differing.2.dmem ∧ differing.1.labels = differing.2.labels ∧
    ∀ r ∈ (Instr.add 10#5 11#5 0#5).sources, differing.1.readReg r = differing.2.readReg r :=
  ⟨eq_next (by decide), by decide⟩

theorem witness_RegistersReadAndWrittenByFamily_memory : ∀ k, differing.1.dmemByte k = differing.2.dmemByte k := fun _ => rfl

theorem witness_WordLevelPcStaysEven : (State.reset.withFetchWord 32 0x064000EF).holdsWords ∧
    (State.reset.withFetchWord 32 0x064000EF).pc.toNat % 2 = 0 ∧
    step (State.reset.withFetchWord 32 0x064000EF) =
      .next (((State.reset.withFetchWord 32 0x064000EF).writeReg 1#5 4#32).setPc 100#32) := by
  refine ⟨fun k => ?_, by decide, eq_next (by decide)⟩
  show ∃ w, (State.reset.putSlot 0 (.word 0x064000EF#32)).slotHold k = .word w
  rw [State.slotHold_putSlot]
  split
  · exact ⟨_, rfl⟩
  · exact ⟨0#32, rfl⟩

theorem witness_WordsAndRecordsStepAlike :
    SameContents (State.reset.putSlot 0 (.word 0x00001537#32)) (State.reset.putSlot 0 (.record (.lui 10#5 1#32))) ∧
    State.reset.putSlot 0 (.word 0x00001537#32) ≠ State.reset.putSlot 0 (.record (.lui 10#5 1#32)) := by
  refine ⟨⟨rfl, rfl, rfl, rfl, fun k => ?_⟩, by decide⟩
  rw [State.slot_putSlot, State.slot_putSlot]
  split
  · decide
  · rfl

theorem witness_LabelAndOffsetFormsAgreeAtThePlacedAddress :
    ((before 0x14#32 [] []).bindLabel (named "L") 0x1C#32).labelAddress (named "L") = some 0x1C#32 ∧
    ((before 0x14#32 [] []).bindLabel (named "L") 0x1C#32).pc = 0x14#32 ∧
    ((before 0x1014#32 [] []).bindLabel (named "L") 0x1C#32).pc = 0x14#32 + 0x1000#32 := by decide

theorem witness_DataAddressesWrapByMask :
    (0xFFFFFFFF#32 : Word).toNat % dmemBytes = (0x00003FFF#32 : Word).toNat % dmemBytes ∧
    dTrans 0xFFFFFFFF#32 = 0x3FFF := by decide

theorem witness_InstructionAddressesSelectSlots :
    (0xFFFFFFFE#32 : Word).toNat % imemBytes / 4 = (0x00000FFC#32 : Word).toNat % imemBytes / 4 ∧
    iTrans 0xFFFFFFFE#32 = 1023 := by decide

theorem witness_ByteEnabledLoadZeroesDisabledBytes : 0 < 4 ∧ 3 < 4 ∧ (0b1000#4).getLsbD 3 = true ∧
    (0b1000#4).getLsbD 0 = false ∧
    (before 0#32 [] [(1, 0xAA#8), (0x3FFE, 0xBB#8)]).dmemLoad 0xFFFFFFFE#32 0b1000#4 = 0xAA000000#32 := by decide

theorem witness_ByteEnabledStoreWritesEnabledBytes : 3 < 4 ∧ (0b1001#4).getLsbD 3 = true ∧
    (∀ i, i < 4 → (0b1001#4).getLsbD i = true → 0x3FFF ≠ accessedIndex 0xFFFFFFFE#32 i) ∧
    (State.reset.dmemStore 0xFFFFFFFE#32 0b1001#4 0xDDCCBBAA#32).dmem = [(1, 0xDD#8), (0x3FFE, 0xAA#8)] := by decide

theorem witness_StoreThenLoadReturnsTheStoredBytes : 0 < 4 ∧ 3 < 4 ∧
    (1 < AccessSize.two.bytes ∧ 3 < AccessSize.four.bytes ∧ accessedIndex 0xFFFFFFFD#32 3 = accessedIndex 0xFFFFFFFF#32 1) ∧
    (0 < AccessSize.four.bytes ∧ ∀ j, j < AccessSize.one.bytes → accessedIndex 0x3FFF#32 0 ≠ accessedIndex 0x4000#32 j) ∧
    (1 < AccessSize.two.bytes ∧ ¬ 1 < AccessSize.one.bytes ∧ 0 < AccessSize.one.bytes) ∧
    (State.reset.memWrite 0xFFFFFFFE#32 .four 0xDDCCBBAA#32).memRead (0xFFFFFFFE#32 + 3#32) .one = 0xDD#32 := by decide

theorem witness_LuiLoadsTheShiftedImmediate :
    wordIn 0xFFFFF537#32 0x0000007F#32 0x00000037#32 = true := by decide

theorem witness_AuipcAddsTheShiftedImmediateToThePc :
    wordIn 0x00001517#32 0x0000007F#32 0x00000017#32 = true := by decide

theorem witness_JalLinksAndJumps :
    wordIn 0xFFDFF06F#32 0x0000007F#32 0x0000006F#32 = true ∧
    (State.reset.bindLabel (named "L") 0xFFFFFFFF#32).labelAddress (named "L") = some 0xFFFFFFFF#32 ∧
    State.reset.labelAddress (named "L") = none ∧
    (State.reset.putSlot 0 (.record (.jal 1#5 (.label (named "L"))))).labelAddress (named "L") = none ∧
    (State.reset.putSlot 0 (.record (.jal 1#5 (.label (named "L"))))).fetch = .instr (.jal 1#5 (.label (named "L"))) := by decide

theorem witness_JalrLinksAndJumpsToTheEvenSum :
    wordIn 0x7FF100E7#32 0x0000707F#32 0x00000067#32 = true := by decide

theorem witness_TargetsResolveByTableOrByOffset :
    (State.reset.bindLabel (named "L") 0xFFFFFFFF#32).labelAddress (named "L") = some 0xFFFFFFFF#32 ∧
    State.reset.labelAddress (named "L") = none := by decide

theorem witness_EqualityBranchesGoToTheTargetWhenTaken :
    wordIn 0x80000063#32 0x0000707F#32 0x00000063#32 = true ∧
    wordIn 0xFE059CE3#32 0x0000707F#32 0x00001063#32 = true ∧
    (State.reset.bindLabel (named "L") 0#32).resolve (.label (named "L")) = .ok 0#32 ∧ State.reset.resolve (.offset 8#32) = .ok 8#32 ∧
    State.reset.labelAddress (named "L") = none ∧
    ((before 0#32 [(5#5, 0xFFFFFFFF#32), (6#5, 0xFFFFFFFF#32)] []).readReg 5#5) = ((before 0#32 [(5#5, 0xFFFFFFFF#32), (6#5, 0xFFFFFFFF#32)] []).readReg 6#5) ∧
    ((before 0#32 [(5#5, 0xFFFFFFFF#32), (6#5, 0x7FFFFFFF#32)] []).readReg 5#5) ≠ ((before 0#32 [(5#5, 0xFFFFFFFF#32), (6#5, 0x7FFFFFFF#32)] []).readReg 6#5) := by decide

theorem witness_SignedBranchesGoToTheTargetWhenTaken :
    wordIn 0x0062C463#32 0x0000707F#32 0x00004063#32 = true ∧
    wordIn 0x0062D463#32 0x0000707F#32 0x00005063#32 = true ∧
    (State.reset.bindLabel (named "L") 0#32).resolve (.label (named "L")) = .ok 0#32 ∧ State.reset.resolve (.offset 8#32) = .ok 8#32 ∧
    State.reset.labelAddress (named "L") = none ∧
    ((before 0#32 [(5#5, 0x80000000#32), (6#5, 0x7FFFFFFF#32)] []).readReg 5#5).toInt < ((before 0#32 [(5#5, 0x80000000#32), (6#5, 0x7FFFFFFF#32)] []).readReg 6#5).toInt ∧
    ((before 0#32 [(5#5, 5#32), (6#5, 5#32)] []).readReg 6#5).toInt ≤ ((before 0#32 [(5#5, 5#32), (6#5, 5#32)] []).readReg 5#5).toInt := by decide

theorem witness_UnsignedBranchesGoToTheTargetWhenTaken :
    wordIn 0x0062E463#32 0x0000707F#32 0x00006063#32 = true ∧
    wordIn 0x0062F463#32 0x0000707F#32 0x00007063#32 = true ∧
    (State.reset.bindLabel (named "L") 0#32).resolve (.label (named "L")) = .ok 0#32 ∧ State.reset.resolve (.offset 8#32) = .ok 8#32 ∧
    State.reset.labelAddress (named "L") = none ∧
    ((before 0#32 [(5#5, 0#32), (6#5, 0xFFFFFFFF#32)] []).readReg 5#5).toNat < ((before 0#32 [(5#5, 0#32), (6#5, 0xFFFFFFFF#32)] []).readReg 6#5).toNat ∧
    ((before 0#32 [(5#5, 5#32), (6#5, 5#32)] []).readReg 6#5).toNat ≤ ((before 0#32 [(5#5, 5#32), (6#5, 5#32)] []).readReg 5#5).toNat := by decide

theorem witness_UntakenBranchesIgnoreUnboundLabels : (Instr.beq 5#5 0#5 (.label (named "L"))).target? = some (.label (named "L")) ∧
    (before 0#32 [(5#5, 1#32)] []).readReg 5#5 ≠ (before 0#32 [(5#5, 1#32)] []).readReg 0#5 ∧
    (before 0#32 [(5#5, 1#32)] []).labelAddress (named "L") = none := by decide

theorem witness_UntakenBranchesIgnoreUnboundLabels_untaken :
    ¬ (Instr.beq 5#5 0#5 (.label (named "L"))).takesTarget (before 0#32 [(5#5, 1#32)] []) := by
  show ¬ ((before 0#32 [(5#5, 1#32)] []).readReg 5#5 = (before 0#32 [(5#5, 1#32)] []).readReg 0#5)
  decide

theorem witness_ByteLoadsExtendTheByte :
    wordIn 0xFFF00503#32 0x0000707F#32 0x00000003#32 = true ∧
    wordIn 0x00414583#32 0x0000707F#32 0x00004003#32 = true := by decide

theorem witness_HalfLoadsExtendTheHalf :
    wordIn 0x00511583#32 0x0000707F#32 0x00001003#32 = true ∧
    wordIn 0xFFF05503#32 0x0000707F#32 0x00005003#32 = true := by decide

theorem witness_WordLoadPassesTheFourBytes :
    wordIn 0x7FF12503#32 0x0000707F#32 0x00002003#32 = true := by decide

theorem witness_ByteStoreWritesOneByte :
    wordIn 0xFEA00FA3#32 0x0000707F#32 0x00000023#32 = true := by decide

theorem witness_HalfStoreWritesTwoBytes :
    wordIn 0x00A113A3#32 0x0000707F#32 0x00001023#32 = true := by decide

theorem witness_WordStoreWritesFourBytes :
    wordIn 0xFEA02F23#32 0x0000707F#32 0x00002023#32 = true := by decide

theorem witness_AddiAddsTheImmediate :
    wordIn 0xFFF58593#32 0x0000707F#32 0x00000013#32 = true := by decide

theorem witness_SltiComparesSigned :
    wordIn 0x8005A513#32 0x0000707F#32 0x00002013#32 = true := by decide

theorem witness_SltiuComparesUnsigned :
    wordIn 0x7FF5B513#32 0x0000707F#32 0x00003013#32 = true := by decide

theorem witness_BitwiseImmediatesCombineEveryBit :
    wordIn 0xFFF5C513#32 0x0000707F#32 0x00004013#32 = true ∧
    wordIn 0x8005E513#32 0x0000707F#32 0x00006013#32 = true ∧
    wordIn 0x0FF5F513#32 0x0000707F#32 0x00007013#32 = true := by decide

theorem witness_ShiftImmediatesShiftByTheLowFiveBits :
    wordIn 0x01F59513#32 0xFE00707F#32 0x00001013#32 = true ∧
    wordIn 0x0035D513#32 0xFE00707F#32 0x00005013#32 = true ∧
    wordIn 0x41F5D513#32 0xFE00707F#32 0x40005013#32 = true ∧
    (0x02059513#32 &&& 0x0000707F#32 ∈ [0x00001013#32, 0x00005013#32] ∧ (0x02059513#32 : Word).getLsbD 25 = true) ∧
    (0x4205D513#32 &&& 0x0000707F#32 ∈ [0x00001013#32, 0x00005013#32] ∧ (0x4205D513#32 : Word).getLsbD 25 = true) := by decide

theorem witness_AddAndSubWrap :
    wordIn 0x00C58533#32 0xFE00707F#32 0x00000033#32 = true ∧
    wordIn 0x40C58533#32 0xFE00707F#32 0x40000033#32 = true := by decide

theorem witness_RegisterShiftsUseTheLowFiveBits :
    wordIn 0x00C59533#32 0xFE00707F#32 0x00001033#32 = true ∧
    wordIn 0x00C5D533#32 0xFE00707F#32 0x00005033#32 = true ∧
    wordIn 0x40C5D533#32 0xFE00707F#32 0x40005033#32 = true := by decide

theorem witness_SetLessThanWritesOneOrZero :
    wordIn 0x00C5A533#32 0xFE00707F#32 0x00002033#32 = true ∧
    wordIn 0x00C5B533#32 0xFE00707F#32 0x00003033#32 = true := by decide

theorem witness_BitwiseRegistersCombineEveryBit :
    wordIn 0x00C5C533#32 0xFE00707F#32 0x00004033#32 = true ∧
    wordIn 0x00C5E533#32 0xFE00707F#32 0x00006033#32 = true ∧
    wordIn 0x00C5F533#32 0xFE00707F#32 0x00007033#32 = true := by decide

theorem witness_EncoderAndDecoderAgree : (Instr.jal 1#5 (.offset 1048574#32)).wellFormed = true ∧
    (Instr.jal 1#5 (.offset 1048575#32)).wellFormed = false ∧
    decode 0x7FFFF0EF#32 = .ok (.jal 1#5 (.offset 1048574#32)) ∧
    encode (.jal 1#5 (.offset 1048574#32)) = some 0x7FFFF0EF#32 ∧ shiftFits 0#32 = true ∧ shiftFits 31#32 = true := by decide

theorem witness_DecoderFollowsTheOpcodeTable : OpcodeRow.mk "LUI" 0x0000007F#32 0x00000037#32 (fun w => .lui (fieldRd w) (immU w)) ∈ opcodeTable ∧
    0xFFFFF537#32 &&& 0x0000007F#32 = 0x00000037#32 :=
  ⟨List.Mem.head _, by decide⟩

theorem witness_DecoderFollowsTheOpcodeTable_empty : decodeSlot 0x00000000#32 = .empty ∧
    opcodeTable.all (fun r => !r.selects 0x00000000#32) = true := by decide

theorem witness_WordsOutsideTheTableAreEmpty :
    0x0FF0000F#32 &&& 0x7F#32 ∉ [0x37#32, 0x17#32, 0x6F#32, 0x67#32, 0x63#32, 0x03#32, 0x23#32, 0x13#32, 0x33#32] ∧
    (0x00009067#32 &&& 0x7F#32 = 0x67#32 ∧ 0x00009067#32 &&& 0x7000#32 ≠ 0#32) ∧
    (0x00003063#32 &&& 0x7F#32 = 0x63#32 ∧ 0x00003063#32 &&& 0x7000#32 ∈ [0x2000#32, 0x3000#32]) ∧
    (0x00017583#32 &&& 0x7F#32 = 0x03#32 ∧ 0x00017583#32 &&& 0x7000#32 ∈ [0x3000#32, 0x6000#32, 0x7000#32]) ∧
    (0x00A13023#32 &&& 0x7F#32 = 0x23#32 ∧
      0x00A13023#32 &&& 0x7000#32 ∈ [0x3000#32, 0x4000#32, 0x5000#32, 0x6000#32, 0x7000#32]) ∧
    (0x40C59533#32 &&& 0x7F#32 = 0x33#32 ∧ 0x40C59533#32 &&& 0xFE000000#32 ≠ 0#32 ∧
      ¬ (0x40C59533#32 &&& 0xFE000000#32 = 0x40000000#32 ∧ 0x40C59533#32 &&& 0x7000#32 ∈ [0x0000#32, 0x5000#32])) ∧
    (0x40059513#32 &&& 0x707F#32 = 0x1013#32 ∧ 0x40059513#32 &&& 0xFE000000#32 ≠ 0#32) ∧
    (0x8005D513#32 &&& 0x707F#32 = 0x5013#32 ∧ 0x8005D513#32 &&& 0xFE000000#32 ∉ [0#32, 0x40000000#32]) := by decide

theorem witness_LoaderBuildsTheImageAndTheLabelTable :
    (loadProgram [.instruction (.lui 10#5 1#32), .label (named "L")]).toOption =
      some ((State.reset.putSlot 0 (.record (.lui 10#5 1#32))).bindLabel (named "L") 4#32) ∧
    [ProgramLine.instruction (.lui 10#5 1#32), .label (named "L")] = [.instruction (.lui 10#5 1#32)] ++ ProgramLine.label (named "L") :: [] ∧
    ProgramLine.label (named "L") ∉ ([] : Program) ∧
    ProgramLine.label (named "M") ∉ [ProgramLine.instruction (.lui 10#5 1#32), .label (named "L")] := by decide

/-- A program of `n` equal instructions has `n` instructions. -/
theorem instructionsOf_replicate (n : Nat) (i : Instr) : (instructionsOf (List.replicate n (.instruction i))).length = n := by
  induction n with
  | zero => rfl
  | succ n ih => simp [List.replicate_succ, instructionsOf, ih]

theorem witness_LoaderRejectsExactlyTheTooLarge :
    (instructionsOf (List.replicate 1024 (.instruction (.lui 10#5 1#32)))).length ≤ imemSlots ∧
    imemSlots < (instructionsOf (List.replicate 1025 (.instruction (.lui 10#5 1#32)))).length := by
  rw [instructionsOf_replicate, instructionsOf_replicate]; decide

theorem witness_LoaderBuildsTheImageAndTheLabelTable_tooLarge :
    imemSlots < (instructionsOf (List.replicate 1025 (.instruction (.lui 10#5 1#32)))).length := by
  rw [instructionsOf_replicate]; decide

theorem witness_WordImageLoadsAsItsRecords :
    [0x00001537#32, 0x00008067#32].map decode = [.lui 10#5 1#32, .jalr 0#5 1#5 0#32].map Except.ok ∧
    [0x00001537#32, 0x00008067#32].length ≤ imemSlots := by decide

theorem witness_RunsEndAtTheFirstErrorOrTheBudget : run 1 (State.reset.withFetchWord 32 0x13) =
      ((State.reset.withFetchWord 32 0x13).setPc 4#32, .budgetExhausted) ∧
    run 2 (State.reset.withFetchWord 32 0x13) = ((State.reset.withFetchWord 32 0x13).setPc 4#32, .error .invalidOpcode) := by
  decide

theorem witness_DriverLoadsAfterResetAndStepsAfterLoading : loadedSession.phase ≠ .fresh ∧
    (Session.mk .noMachine State.reset).phase ≠ .fresh ∧ (Session.mk .noMachine State.reset).phase ≠ .loaded ∧
    (Session.mk .fresh State.reset).phase ≠ .loaded ∧
    (Session.mk .loaded State.reset).phase = .loaded ∧ step (Session.mk .loaded State.reset).state = .fault .invalidOpcode ∧
    loadedSession.phase = .loaded ∧ step loadedSession.state = .next ((loadedSession.state.writeReg 10#5 5#32).setPc 4#32) :=
  ⟨by decide, by decide, by decide, by decide, by decide, eq_fault (by decide), by decide, eq_next (by decide)⟩

theorem witness_DriverLoadsAfterResetAndStepsAfterLoading_load : (Session.mk .fresh State.reset).phase = .fresh ∧
    (loadProgram [.instruction (.lui 10#5 1#32)]).toOption = some (State.reset.putSlot 0 (.record (.lui 10#5 1#32))) ∧
    (loadImage [0x00500513#32]).toOption = some (State.reset.putSlot 0 (.word 0x00500513#32)) := by decide

/-- Placing more equal instructions than the slots that are left fails. -/
theorem loadLines_replicate_error (i : Instr) : ∀ (n k : Nat) (s : State), k ≤ imemSlots → imemSlots < k + n →
    ∃ e, loadLines (List.replicate n (.instruction i)) (4 * k) s = .error e := by
  intro n
  induction n with
  | zero => intro k s hk h; omega
  | succ n ih =>
    intro k s hk h
    simp only [List.replicate_succ, loadLines]
    rw [Nat.mul_div_cancel_left k (by decide : 0 < 4), show 4 * k + 4 = 4 * (k + 1) by omega]
    split
    · exact ⟨_, rfl⟩
    · exact ih (k + 1) _ (by omega) (by omega)

theorem witness_DriverLoadsAfterResetAndStepsAfterLoading_loadError :
    (∃ e, loadProgram (List.replicate 1025 (.instruction (.lui 10#5 1#32))) = .error e) ∧
    loadImage (List.replicate 1025 0x00000013#32) = .error (.programTooLarge 4096) := by
  refine ⟨loadLines_replicate_error _ 1025 0 State.reset (by decide) (by decide), ?_⟩
  unfold loadImage
  rw [List.length_replicate]
  rfl

theorem witness_RegisterNamesAreTheTable : constructRegister "t6" = .ok 31#5 ∧ constructRegister "fp" = .ok 8#5 ∧
    0 < 32 ∧ 31 < 32 ∧ constructRegister "x32" = .error (.error (.invalidRegisterName "x32")) ∧
    ∀ i, i < 32 → "x32" ≠ "x" ++ toString i := by decide

end Sys2Proof.Tests
end

section
/-! SUPPORT. The outcomes of a step and of a run whose step errs (00_scope.md R16), and the settlement of O5. -/

namespace Sys2Proof.Machine

/-- An instruction completes or raises UnknownLabel; InvalidOpcode is not among its errors (R235, R236). -/
theorem exec_next_or_unknownLabel (i : Instr) (s : State) :
    (∃ t, exec i s = .next t) ∨ ∃ name, exec i s = .fault (.unknownLabel name) := by
  rcases exec_cases i s with ⟨_, _, _, -, -, h⟩ | ⟨_, -, -, h⟩ | ⟨_, _, _, -, -, h⟩ | ⟨name, -, -, h⟩
  · exact .inl ⟨_, h⟩
  · exact .inl ⟨_, h⟩
  · exact .inl ⟨_, h⟩
  · exact .inr ⟨name, h⟩

/-- A run whose first step errs ends there, in the state it started from (R233, R274). -/
theorem run_succ_of_step_fault {s : State} {f : Fault} (h : step s = .fault f) (n : Nat) :
    run (n + 1) s = (s, .error f) := by
  simp only [run, h]

/-- Settles O5: the record at the pc completes or raises UnknownLabel, an empty slot raises InvalidOpcode, and a run
stops in the state whose step errs. -/
theorem stepHasThreeOutcomes : Obligations.StepHasThreeOutcomes := by
  intro s
  refine ⟨?_, fun f hf => run_succ_of_step_fault hf 0⟩
  rcases step_cases s with ⟨i, -, hstep⟩ | ⟨-, hstep⟩
  · rw [hstep]
    exact (exec_next_or_unknownLabel i s).imp_right .inl
  · exact .inr (.inr hstep)

end Sys2Proof.Machine
end

section
/-! SUPPORT. Register reads after a write to the same and to another register, and after reset (10_state.md R21, R22,
R39), and the settlement of O2. -/

namespace Sys2Proof.Machine

@[simp] theorem State.writeReg_zero (s : State) (v : Word) : s.writeReg 0#5 v = s := rfl

theorem State.readReg_writeReg_same (s : State) {i : Reg} (v : Word) (hi : i ≠ 0#5) :
    (s.writeReg i v).readReg i = v := by
  rw [State.readReg_writeReg, if_neg hi, if_pos rfl]

theorem State.readReg_writeReg_of_ne (s : State) {i j : Reg} (v : Word) (hji : j ≠ i) :
    (s.writeReg i v).readReg j = s.readReg j := by
  rw [State.readReg_writeReg, if_neg hji]
  split
  case isTrue hj => rw [hj, State.readReg_zero]
  case isFalse => rfl

/-- The reset value is stored for every register but 0: the index of register `i` lies within the 31 stored ones. -/
theorem State.readReg_reset {i : Reg} (hi : i ≠ 0#5) : State.reset.readReg i = Config.reference.initReg := by
  have hindex : i.toNat - 1 < 31 := by bv_omega
  simp [State.readReg, State.reset, hi, hindex]

/-- Settles O2: a case of `readReg_writeReg` for each register read, and the registers as reset stores them. -/
theorem registersReadWhatWasWritten : Obligations.RegistersReadWhatWasWritten := by
  intro s i j v
  exact ⟨s.readReg_zero, s.writeReg_zero v, s.readReg_writeReg_same v, s.readReg_writeReg_of_ne v, State.readReg_reset⟩

end Sys2Proof.Machine
end

section
/-! SUPPORT. Data address translation (20_memory.md R55), and the settlement of O16. -/

namespace Sys2Proof.Machine

/-- Translation never fails: what it answers is a byte index of the memory. -/
theorem dTrans_lt (a : Word) : dTrans a < dmemBytes := by
  rw [dTrans_eq_mod]
  exact Nat.mod_lt _ (by decide)

theorem dTrans_eq_dTrans_iff (a b : Word) : dTrans a = dTrans b ↔ a.toNat % dmemBytes = b.toNat % dmemBytes := by
  rw [dTrans_eq_mod, dTrans_eq_mod]

/-- Settles O16: the mask is its definition, and by `dTrans_eq_mod` it is the remainder modulo the capacity, which gives
the range and the addresses that translate alike. -/
theorem dataAddressesWrapByMask : Obligations.DataAddressesWrapByMask := by
  intro a b
  exact ⟨rfl, dTrans_eq_mod a, dTrans_lt a, (dTrans_eq_dTrans_iff a b).mpr, by decide, by decide, by decide⟩

end Sys2Proof.Machine
end

section
/-! SUPPORT. The encoder against the decoder (30_encoding.md R94, R101 to R104): the operands of an encoded word are the
record's, a word is the encoding of its own fields, an encodable record's word matches the record's row, and the
settlement of O47. -/

namespace Sys2Proof

/-! ### Immediates and their fields -/

/-- The low `n` bits read as signed are the signed value reduced modulo `2 ^ n`. -/
theorem toInt_extractLsb'_zero {n : Nat} (hn : n ≤ 32) (v : Word) :
    (v.extractLsb' 0 n).toInt = v.toInt.bmod (2 ^ n) := by
  rw [BitVec.toInt_eq_toNat_bmod, BitVec.toInt_eq_toNat_bmod, Int.bmod_bmod_of_dvd (pow_dvd_pow 2 hn),
    BitVec.extractLsb'_toNat, Nat.shiftRight_zero, Int.natCast_mod, Int.emod_bmod]

/-- A value that fits `n` signed bits is the sign extension of its low `n` bits. -/
theorem signExtend_extractLsb'_of_fitsSigned {n : Nat} (hpos : 0 < n) (hn : n ≤ 32) {v : Word}
    (h : fitsSigned n v = true) : (v.extractLsb' 0 n).signExtend 32 = v := by
  obtain ⟨hlo, hhi⟩ := of_decide_eq_true h
  have hpow : ((2 ^ n : Nat) : Int) = 2 ^ (n - 1) * 2 := by
    rw [Nat.cast_pow, Nat.cast_ofNat, ← pow_succ, Nat.sub_add_cancel hpos]
  apply BitVec.eq_of_toInt_eq
  rw [BitVec.toInt_signExtend_of_le hn, toInt_extractLsb'_zero hn]
  exact Int.bmod_eq_of_le_mul_two (by omega) (by omega)

/-- A sign extension of `n` bits fits `n` signed bits. -/
theorem fitsSigned_signExtend {n : Nat} (hn : n ≤ 32) (x : BitVec n) : fitsSigned n (x.signExtend 32) = true := by
  rw [fitsSigned, decide_eq_true_eq, BitVec.toInt_signExtend_of_le hn]
  exact ⟨x.le_toInt, x.toInt_lt⟩

/-- A value below `2 ^ n` is the zero extension of its low `n` bits. -/
theorem setWidth_extractLsb'_of_lt {n : Nat} {v : Word} (h : v.toNat < 2 ^ n) :
    (v.extractLsb' 0 n).setWidth 32 = v := by
  apply BitVec.eq_of_toNat_eq
  rw [BitVec.toNat_setWidth, BitVec.extractLsb'_toNat, Nat.shiftRight_zero, Nat.mod_eq_of_lt h, Nat.mod_eq_of_lt v.isLt]

theorem toNat_setWidth_lt {n : Nat} (x : BitVec n) : (x.setWidth 32).toNat < 2 ^ n := by
  rw [BitVec.toNat_setWidth]
  exact (Nat.mod_le _ _).trans_lt x.isLt

/-- The bits of a sign extension below the extended width are those of the value extended. -/
theorem extractLsb'_signExtend {n start len : Nat} (h : start + len ≤ n) (hn : n ≤ 32) (x : BitVec n) :
    (x.signExtend 32).extractLsb' start len = x.extractLsb' start len := by
  ext i hi
  simp only [BitVec.getElem_extractLsb', BitVec.getLsbD_signExtend]
  rw [if_pos (by omega), decide_eq_true (by omega), Bool.true_and]

theorem even_iff_extractLsb'_zero (v : Word) : v.toNat % 2 = 0 ↔ v.extractLsb' 0 1 = 0#1 := by
  rw [← BitVec.toNat_inj, BitVec.extractLsb'_toNat]
  rfl

/-- R94: an encodable target is an even offset in range. -/
theorem targetFits_iff (n : Nat) (target : JumpTarget) : targetFits n target = true ↔
    ∃ off, target = .offset off ∧ off.extractLsb' 0 1 = 0#1 ∧ fitsSigned n off = true := by
  cases target with
  | label name => simp [targetFits]
  | offset off => simp [targetFits, even_iff_extractLsb'_zero]

/-! ### The operands of an encoded word are the record's -/

section Operands
variable (imm : Word) (f7 : BitVec 7) (rs2 rs1 : Reg) (f3 : BitVec 3) (rd : Reg) (op : BitVec 7)

theorem registers_encodeR : fieldRd (encodeR f7 rs2 rs1 f3 rd op) = rd ∧
    fieldRs1 (encodeR f7 rs2 rs1 f3 rd op) = rs1 ∧ fieldRs2 (encodeR f7 rs2 rs1 f3 rd op) = rs2 := by
  simp (disch := decide) only [fieldRd, fieldRs1, fieldRs2, encodeR, BitVec.extractLsb'_append_eq_of_le,
    BitVec.extractLsb'_append_eq_of_add_le, Nat.reduceSub, BitVec.extractLsb'_eq_self, and_self]

theorem registers_encodeI : fieldRd (encodeI imm rs1 f3 rd op) = rd ∧ fieldRs1 (encodeI imm rs1 f3 rd op) = rs1 := by
  simp (disch := decide) only [fieldRd, fieldRs1, encodeI, BitVec.extractLsb'_append_eq_of_le,
    BitVec.extractLsb'_append_eq_of_add_le, Nat.reduceSub, BitVec.extractLsb'_eq_self, and_self]

theorem registers_encodeS : fieldRs1 (encodeS imm rs2 rs1 f3 op) = rs1 ∧
    fieldRs2 (encodeS imm rs2 rs1 f3 op) = rs2 := by
  simp (disch := decide) only [fieldRs1, fieldRs2, encodeS, BitVec.extractLsb'_append_eq_of_le,
    BitVec.extractLsb'_append_eq_of_add_le, Nat.reduceSub, BitVec.extractLsb'_eq_self, and_self]

theorem registers_encodeB : fieldRs1 (encodeB imm rs2 rs1 f3 op) = rs1 ∧
    fieldRs2 (encodeB imm rs2 rs1 f3 op) = rs2 := by
  simp (disch := decide) only [fieldRs1, fieldRs2, encodeB, BitVec.extractLsb'_append_eq_of_le,
    BitVec.extractLsb'_append_eq_of_add_le, Nat.reduceSub, BitVec.extractLsb'_eq_self, and_self]

theorem fieldRd_encodeU : fieldRd (encodeU imm rd op) = rd := by
  simp (disch := decide) only [fieldRd, encodeU, BitVec.extractLsb'_append_eq_of_le,
    BitVec.extractLsb'_append_eq_of_add_le, Nat.reduceSub, BitVec.extractLsb'_eq_self]

theorem fieldRd_encodeJ : fieldRd (encodeJ imm rd op) = rd := by
  simp (disch := decide) only [fieldRd, encodeJ, BitVec.extractLsb'_append_eq_of_le,
    BitVec.extractLsb'_append_eq_of_add_le, Nat.reduceSub, BitVec.extractLsb'_eq_self]

theorem shamt_encodeR : shamt (encodeR f7 rs2 rs1 f3 rd op) = rs2.setWidth 32 :=
  congrArg (BitVec.setWidth 32) (registers_encodeR f7 rs2 rs1 f3 rd op).2.2

theorem immI_encodeI : immI (encodeI imm rs1 f3 rd op) = (imm.extractLsb' 0 12).signExtend 32 := by
  simp (disch := decide) only [immI, encodeI, BitVec.extractLsb'_append_eq_of_le, Nat.reduceSub,
    BitVec.extractLsb'_eq_self]

theorem immU_encodeU : immU (encodeU imm rd op) = (imm.extractLsb' 0 20).setWidth 32 := by
  simp (disch := decide) only [immU, encodeU, BitVec.extractLsb'_append_eq_of_le, Nat.reduceSub,
    BitVec.extractLsb'_eq_self]

theorem immS_encodeS : immS (encodeS imm rs2 rs1 f3 op) = (imm.extractLsb' 0 12).signExtend 32 := by
  simp (disch := decide) only [immS, encodeS, BitVec.extractLsb'_append_eq_of_le,
    BitVec.extractLsb'_append_eq_of_add_le, Nat.reduceSub, BitVec.extractLsb'_eq_self,
    BitVec.extractLsb'_append_extractLsb'_eq_extractLsb']

theorem immB_encodeB (h : imm.extractLsb' 0 1 = 0#1) :
    immB (encodeB imm rs2 rs1 f3 op) = (imm.extractLsb' 0 13).signExtend 32 := by
  simp (disch := decide) only [immB, encodeB, BitVec.extractLsb'_append_eq_of_le, ← h,
    BitVec.extractLsb'_append_eq_of_add_le, Nat.reduceSub, BitVec.extractLsb'_eq_self,
    BitVec.extractLsb'_append_extractLsb'_eq_extractLsb']

theorem immJ_encodeJ (h : imm.extractLsb' 0 1 = 0#1) :
    immJ (encodeJ imm rd op) = (imm.extractLsb' 0 21).signExtend 32 := by
  simp (disch := decide) only [immJ, encodeJ, BitVec.extractLsb'_append_eq_of_le, ← h,
    BitVec.extractLsb'_append_eq_of_add_le, Nat.reduceSub, BitVec.extractLsb'_eq_self,
    BitVec.extractLsb'_append_extractLsb'_eq_extractLsb']

end Operands

/-! ### A word is the encoding of its own fields -/

section Fields
variable (w : Word)

theorem encodeR_fields :
    encodeR (w.extractLsb' 25 7) (fieldRs2 w) (fieldRs1 w) (w.extractLsb' 12 3) (fieldRd w)
      (w.extractLsb' 0 7) = w := by
  simp (disch := decide) only [encodeR, fieldRs1, fieldRs2, fieldRd,
    BitVec.extractLsb'_append_extractLsb'_eq_extractLsb', BitVec.extractLsb'_eq_self]

theorem encodeI_fields :
    encodeI (immI w) (fieldRs1 w) (w.extractLsb' 12 3) (fieldRd w) (w.extractLsb' 0 7) = w := by
  simp (disch := decide) only [encodeI, immI, fieldRs1, fieldRd, extractLsb'_signExtend,
    BitVec.extractLsb'_eq_self, BitVec.extractLsb'_append_extractLsb'_eq_extractLsb']

theorem encodeS_fields :
    encodeS (immS w) (fieldRs2 w) (fieldRs1 w) (w.extractLsb' 12 3) (w.extractLsb' 0 7) = w := by
  simp (disch := decide) only [encodeS, immS, fieldRs1, fieldRs2, extractLsb'_signExtend,
    BitVec.extractLsb'_append_eq_of_le, BitVec.extractLsb'_append_eq_of_add_le, Nat.reduceSub,
    BitVec.extractLsb'_eq_self, BitVec.extractLsb'_append_extractLsb'_eq_extractLsb']

theorem encodeB_fields :
    encodeB (immB w) (fieldRs2 w) (fieldRs1 w) (w.extractLsb' 12 3) (w.extractLsb' 0 7) = w := by
  simp (disch := decide) only [encodeB, immB, fieldRs1, fieldRs2, extractLsb'_signExtend,
    BitVec.extractLsb'_append_eq_of_le, BitVec.extractLsb'_append_eq_of_add_le, Nat.reduceSub,
    BitVec.extractLsb'_eq_self, BitVec.extractLsb'_append_extractLsb'_eq_extractLsb']

theorem encodeU_fields : encodeU (immU w) (fieldRd w) (w.extractLsb' 0 7) = w := by
  simp (disch := decide) only [encodeU, immU, fieldRd, BitVec.extractLsb'_setWidth_of_le,
    BitVec.extractLsb'_eq_self, BitVec.extractLsb'_append_extractLsb'_eq_extractLsb']

theorem encodeJ_fields : encodeJ (immJ w) (fieldRd w) (w.extractLsb' 0 7) = w := by
  simp (disch := decide) only [encodeJ, immJ, fieldRd, extractLsb'_signExtend,
    BitVec.extractLsb'_append_eq_of_le, BitVec.extractLsb'_append_eq_of_add_le, Nat.reduceSub,
    BitVec.extractLsb'_eq_self, BitVec.extractLsb'_append_extractLsb'_eq_extractLsb']

theorem immediateFits_immI : immediateFits (immI w) = true := fitsSigned_signExtend (by decide) _

theorem immediateFits_immS : immediateFits (immS w) = true := fitsSigned_signExtend (by decide) _

theorem branchTargetFits_immB : branchTargetFits (.offset (immB w)) = true :=
  (targetFits_iff _ _).2 ⟨_, rfl, (extractLsb'_signExtend (by decide) (by decide) _).trans
    BitVec.extractLsb'_append_eq_right, fitsSigned_signExtend (by decide) _⟩

theorem jalTargetFits_immJ : jalTargetFits (.offset (immJ w)) = true :=
  (targetFits_iff _ _).2 ⟨_, rfl, (extractLsb'_signExtend (by decide) (by decide) _).trans
    BitVec.extractLsb'_append_eq_right, fitsSigned_signExtend (by decide) _⟩

theorem upperImmediateFits_immU : upperImmediateFits (immU w) = true := decide_eq_true (toNat_setWidth_lt _)

theorem shiftFits_shamt : shiftFits (shamt w) = true := decide_eq_true (toNat_setWidth_lt (fieldRs2 w))

end Fields

/-! ### The row of a record -/

theorem Instr.ctorIdx_lt (i : Instr) : i.ctorIdx < opcodeTable.length := by
  cases i <;> exact of_decide_eq_true rfl

/-- R106: the row of a record, the opcode table being in the order of the constructors of `Instr`. -/
def Instr.row (i : Instr) : OpcodeRow := opcodeTable[i.ctorIdx]'i.ctorIdx_lt

theorem Instr.row_mem (i : Instr) : i.row ∈ opcodeTable := List.getElem_mem _

/-- R104: the word of a record matches the record's row. -/
theorem Instr.row_selects_encodeWord (i : Instr) : i.row.selects (encodeWord i) = true := by
  rw [OpcodeRow.selects, beq_iff_eq]
  cases i with
  | lui | auipc => exact encodeU_and _ _ _
  | jal => exact encodeJ_and _ _ _
  | beq | bne | blt | bge | bltu | bgeu => exact encodeB_and _ _ _ _ _
  | sb | sh | sw => exact encodeS_and _ _ _ _ _
  | jalr | lb | lh | lw | lbu | lhu | addi | slti | sltiu | xori | ori | andi => exact encodeI_and _ _ _ _ _
  | slli | srli | srai | add | sub | sll | slt | sltu | xor | srl | sra | or | and => exact encodeR_and _ _ _ _ _ _


/-! ### Building a record from its own word gives it back -/

section Build
variable (rs2 rs1 : Reg) (f3 : BitVec 3) (rd : Reg) (op : BitVec 7)

theorem build_encodeR (record : Reg → Reg → Reg → Instr) (f7 : BitVec 7) :
    record (fieldRd (encodeR f7 rs2 rs1 f3 rd op)) (fieldRs1 (encodeR f7 rs2 rs1 f3 rd op))
      (fieldRs2 (encodeR f7 rs2 rs1 f3 rd op)) = record rd rs1 rs2 := by
  simp only [registers_encodeR]

theorem build_encodeR_shift (record : Reg → Reg → Word → Instr) (f7 : BitVec 7) {imm : Word}
    (h : shiftFits imm = true) :
    record (fieldRd (encodeR f7 (imm.extractLsb' 0 5) rs1 f3 rd op))
      (fieldRs1 (encodeR f7 (imm.extractLsb' 0 5) rs1 f3 rd op))
      (shamt (encodeR f7 (imm.extractLsb' 0 5) rs1 f3 rd op)) = record rd rs1 imm := by
  rw [shamt_encodeR, setWidth_extractLsb'_of_lt (n := 5) (of_decide_eq_true h)]
  simp only [registers_encodeR]

theorem build_encodeI (record : Reg → Reg → Word → Instr) {imm : Word} (h : immediateFits imm = true) :
    record (fieldRd (encodeI imm rs1 f3 rd op)) (fieldRs1 (encodeI imm rs1 f3 rd op))
      (immI (encodeI imm rs1 f3 rd op)) = record rd rs1 imm := by
  rw [immI_encodeI, signExtend_extractLsb'_of_fitsSigned (by decide) (by decide) h]
  simp only [registers_encodeI]

theorem build_encodeI_address (record : Reg → Address → Instr) {address : Address}
    (h : immediateFits address.offset = true) :
    record (fieldRd (encodeI address.offset address.base f3 rd op))
      (Address.mk (fieldRs1 (encodeI address.offset address.base f3 rd op))
        (immI (encodeI address.offset address.base f3 rd op))) = record rd address :=
  build_encodeI address.base f3 rd op (fun rd base offset => record rd (Address.mk base offset)) h

theorem build_encodeS (record : Reg → Address → Instr) {address : Address}
    (h : immediateFits address.offset = true) :
    record (fieldRs2 (encodeS address.offset rs2 address.base f3 op))
      (Address.mk (fieldRs1 (encodeS address.offset rs2 address.base f3 op))
        (immS (encodeS address.offset rs2 address.base f3 op))) = record rs2 address := by
  rw [immS_encodeS, signExtend_extractLsb'_of_fitsSigned (by decide) (by decide) h]
  simp only [registers_encodeS]

theorem build_encodeB (record : Reg → Reg → JumpTarget → Instr) {target : JumpTarget}
    (h : branchTargetFits target = true) :
    record (fieldRs1 (encodeB target.offsetBits rs2 rs1 f3 op)) (fieldRs2 (encodeB target.offsetBits rs2 rs1 f3 op))
      (.offset (immB (encodeB target.offsetBits rs2 rs1 f3 op))) = record rs1 rs2 target := by
  obtain ⟨off, rfl, heven, hfits⟩ := (targetFits_iff 13 target).1 h
  rw [JumpTarget.offsetBits, immB_encodeB off rs2 rs1 f3 op heven,
    signExtend_extractLsb'_of_fitsSigned (by decide) (by decide) hfits]
  simp only [registers_encodeB]

theorem build_encodeU (record : Reg → Word → Instr) {imm : Word} (h : upperImmediateFits imm = true) :
    record (fieldRd (encodeU imm rd op)) (immU (encodeU imm rd op)) = record rd imm := by
  rw [immU_encodeU, setWidth_extractLsb'_of_lt (of_decide_eq_true h), fieldRd_encodeU]

theorem build_encodeJ (record : Reg → JumpTarget → Instr) {target : JumpTarget}
    (h : jalTargetFits target = true) :
    record (fieldRd (encodeJ target.offsetBits rd op)) (.offset (immJ (encodeJ target.offsetBits rd op))) =
      record rd target := by
  obtain ⟨off, rfl, heven, hfits⟩ := (targetFits_iff 21 target).1 h
  rw [JumpTarget.offsetBits, immJ_encodeJ off rd op heven,
    signExtend_extractLsb'_of_fitsSigned (by decide) (by decide) hfits, fieldRd_encodeJ]

end Build

/-- The row of an encodable record builds the record from its word. -/
theorem Instr.row_build_encodeWord {i : Instr} (h : i.wellFormed = true) : i.row.build (encodeWord i) = i := by
  cases i with
  | lui | auipc => exact build_encodeU _ _ _ h
  | jal => exact build_encodeJ _ _ _ h
  | beq | bne | blt | bge | bltu | bgeu => exact build_encodeB _ _ _ _ _ h
  | sb | sh | sw => exact build_encodeS _ _ _ _ h
  | lb | lh | lw | lbu | lhu => exact build_encodeI_address _ _ _ _ h
  | jalr | addi | slti | sltiu | xori | ori | andi => exact build_encodeI _ _ _ _ _ h
  | slli | srli | srai => exact build_encodeR_shift _ _ _ _ _ _ h
  | add | sub | sll | slt | sltu | xor | srl | sra | or | and => exact build_encodeR _ _ _ _ _ _ _

/-- R104: the word of an encodable record decodes to the record. -/
theorem decode_encodeWord {i : Instr} (h : i.wellFormed = true) : decode (encodeWord i) = .ok i := by
  rw [decode_of_row i.row_mem i.row_selects_encodeWord, i.row_build_encodeWord h]

theorem encode_eq_some_iff {i : Instr} {w : Word} : encode i = some w ↔ i.wellFormed = true ∧ encodeWord i = w := by
  simp only [encode, Option.ite_none_right_eq_some, Option.some.injEq]

theorem decode_of_encode {i : Instr} {w : Word} (h : encode i = some w) : decode w = .ok i := by
  obtain ⟨hwf, rfl⟩ := encode_eq_some_iff.1 h
  exact decode_encodeWord hwf

/-! ### Encoding the record a row builds from a word gives the word back -/

/-- A mask that covers a field fixes the field in the words that match under it. -/
theorem extractLsb'_of_and {w mask pattern : Word} (h : w &&& mask = pattern) {start len : Nat}
    (hmask : mask.extractLsb' start len = BitVec.allOnes len) :
    w.extractLsb' start len = pattern.extractLsb' start len := by
  rw [← h, BitVec.extractLsb'_and, hmask, BitVec.and_allOnes]

section Matching
variable {w pattern : Word} {f7 : BitVec 7} {f3 : BitVec 3} {op : BitVec 7}

theorem encodeR_of_and (h : w &&& 0xFE00707F#32 = pattern) (hf7 : pattern.extractLsb' 25 7 = f7)
    (hf3 : pattern.extractLsb' 12 3 = f3) (hop : pattern.extractLsb' 0 7 = op) :
    encodeR f7 (fieldRs2 w) (fieldRs1 w) f3 (fieldRd w) op = w := by
  rw [← hf7, ← hf3, ← hop, ← extractLsb'_of_and h (by decide), ← extractLsb'_of_and h (by decide),
    ← extractLsb'_of_and h (by decide)]
  exact encodeR_fields w

theorem encodeR_shamt_of_and (h : w &&& 0xFE00707F#32 = pattern) (hf7 : pattern.extractLsb' 25 7 = f7)
    (hf3 : pattern.extractLsb' 12 3 = f3) (hop : pattern.extractLsb' 0 7 = op) :
    encodeR f7 ((shamt w).extractLsb' 0 5) (fieldRs1 w) f3 (fieldRd w) op = w := by
  rw [shamt, BitVec.extractLsb'_setWidth_of_le (by decide), BitVec.extractLsb'_eq_self]
  exact encodeR_of_and h hf7 hf3 hop

theorem encodeI_of_and (h : w &&& 0x0000707F#32 = pattern) (hf3 : pattern.extractLsb' 12 3 = f3)
    (hop : pattern.extractLsb' 0 7 = op) : encodeI (immI w) (fieldRs1 w) f3 (fieldRd w) op = w := by
  rw [← hf3, ← hop, ← extractLsb'_of_and h (by decide), ← extractLsb'_of_and h (by decide)]
  exact encodeI_fields w

theorem encodeS_of_and (h : w &&& 0x0000707F#32 = pattern) (hf3 : pattern.extractLsb' 12 3 = f3)
    (hop : pattern.extractLsb' 0 7 = op) : encodeS (immS w) (fieldRs2 w) (fieldRs1 w) f3 op = w := by
  rw [← hf3, ← hop, ← extractLsb'_of_and h (by decide), ← extractLsb'_of_and h (by decide)]
  exact encodeS_fields w

theorem encodeB_of_and (h : w &&& 0x0000707F#32 = pattern) (hf3 : pattern.extractLsb' 12 3 = f3)
    (hop : pattern.extractLsb' 0 7 = op) : encodeB (immB w) (fieldRs2 w) (fieldRs1 w) f3 op = w := by
  rw [← hf3, ← hop, ← extractLsb'_of_and h (by decide), ← extractLsb'_of_and h (by decide)]
  exact encodeB_fields w

theorem encodeU_of_and (h : w &&& 0x0000007F#32 = pattern) (hop : pattern.extractLsb' 0 7 = op) :
    encodeU (immU w) (fieldRd w) op = w := by
  rw [← hop, ← extractLsb'_of_and h (by decide)]
  exact encodeU_fields w

theorem encodeJ_of_and (h : w &&& 0x0000007F#32 = pattern) (hop : pattern.extractLsb' 0 7 = op) :
    encodeJ (immJ w) (fieldRd w) op = w := by
  rw [← hop, ← extractLsb'_of_and h (by decide)]
  exact encodeJ_fields w

end Matching

/-- Every word of the row is the word of the encodable record that the row builds from it. -/
def OpcodeRow.Reencodes (r : OpcodeRow) : Prop :=
  ∀ w : Word, w &&& r.mask = r.pattern → (r.build w).wellFormed = true ∧ encodeWord (r.build w) = w

theorem reencodes_opcodeRowsUpper : ∀ r ∈ opcodeRowsUpper, r.Reencodes := by
  intro r hr w h
  fin_cases hr <;> exact ⟨upperImmediateFits_immU w, encodeU_of_and h (by decide)⟩

theorem reencodes_opcodeRowsJump : ∀ r ∈ opcodeRowsJump, r.Reencodes := by
  intro r hr w h
  fin_cases hr
  · exact ⟨jalTargetFits_immJ w, encodeJ_of_and h (by decide)⟩
  · exact ⟨immediateFits_immI w, encodeI_of_and h (by decide) (by decide)⟩

theorem reencodes_opcodeRowsBranch : ∀ r ∈ opcodeRowsBranch, r.Reencodes := by
  intro r hr w h
  fin_cases hr <;> exact ⟨branchTargetFits_immB w, encodeB_of_and h (by decide) (by decide)⟩

theorem reencodes_opcodeRowsLoad : ∀ r ∈ opcodeRowsLoad, r.Reencodes := by
  intro r hr w h
  fin_cases hr <;> exact ⟨immediateFits_immI w, encodeI_of_and h (by decide) (by decide)⟩

theorem reencodes_opcodeRowsStore : ∀ r ∈ opcodeRowsStore, r.Reencodes := by
  intro r hr w h
  fin_cases hr <;> exact ⟨immediateFits_immS w, encodeS_of_and h (by decide) (by decide)⟩

theorem reencodes_opcodeRowsImmediate : ∀ r ∈ opcodeRowsImmediate, r.Reencodes := by
  intro r hr w h
  fin_cases hr <;> exact ⟨immediateFits_immI w, encodeI_of_and h (by decide) (by decide)⟩

theorem reencodes_opcodeRowsShiftImmediate : ∀ r ∈ opcodeRowsShiftImmediate, r.Reencodes := by
  intro r hr w h
  fin_cases hr <;> exact ⟨shiftFits_shamt w, encodeR_shamt_of_and h (by decide) (by decide) (by decide)⟩

theorem reencodes_opcodeRowsRegister : ∀ r ∈ opcodeRowsRegister, r.Reencodes := by
  intro r hr w h
  fin_cases hr <;> exact ⟨rfl, encodeR_of_and h (by decide) (by decide) (by decide)⟩

theorem reencodes_opcodeTable : ∀ r ∈ opcodeTable, r.Reencodes := by
  simp only [opcodeTable, List.forall_mem_append]
  exact ⟨⟨⟨⟨⟨⟨⟨reencodes_opcodeRowsUpper, reencodes_opcodeRowsJump⟩, reencodes_opcodeRowsBranch⟩,
    reencodes_opcodeRowsLoad⟩, reencodes_opcodeRowsStore⟩, reencodes_opcodeRowsImmediate⟩,
    reencodes_opcodeRowsShiftImmediate⟩, reencodes_opcodeRowsRegister⟩

/-- R104: a word that decodes is the word of the record it decodes to. -/
theorem encode_of_decode {w : Word} {i : Instr} (h : decode w = .ok i) : encode i = some w := by
  obtain ⟨r, hr, hw, rfl⟩ := row_of_decode h
  exact encode_eq_some_iff.2 (reencodes_opcodeTable r hr w (eq_of_beq hw))

/-- Settles O47: `encode` and `decode` undo each other (`decode_encodeWord`, `encode_of_decode`), so two records with
the same word are what that word decodes to. -/
theorem encoderAndDecoderAgree : Obligations.EncoderAndDecoderAgree := by
  and_intros
  · exact fun i hi => ⟨encodeWord i, if_pos hi, decode_encodeWord hi⟩
  · exact fun i hi => if_neg (by rw [hi]; decide)
  · exact fun w i => encode_of_decode
  · exact fun i j w hi hj => Except.ok.inj ((decode_of_encode hi).symm.trans (decode_of_encode hj))
  · exact fun rd rs1 imm h => ⟨if_pos h, if_pos h, if_pos h⟩

end Sys2Proof
end

section
/-! SUPPORT. What the families whose instructions compute a register share (the words of a record's row, the commit that
advances the pc), the value of an upper immediate (40_upper_immediate.md R130), and the settlement of O23. -/

namespace Sys2Proof.Machine

/-- R103: every word of the row of a record's mnemonic decodes by that row. -/
theorem wordsDecodeTo_row (i : Instr) : WordsDecodeTo i.row.mask i.row.pattern i.row.build :=
  fun _ hw => decode_of_row i.row_mem (beq_iff_eq.2 hw)

/-- An instruction whose meaning is to commit a value and advance the pc computes that value (R231). -/
theorem computes_of_exec_eq_commit {i : Instr} {s : State} {rd : Reg} {v : Word} {value : Word → Prop}
    (hexec : exec i s = s.commit rd v s.nextPc) (hv : value v) : Computes i s rd value := by
  obtain ⟨t, hcommit, hwrites⟩ := commit_writesRegister s rd v s.nextPc
  exact ⟨t, v, hexec.trans hcommit, hv, hwrites⟩

theorem exec_lui (rd : Reg) (imm : Word) (s : State) :
    exec (.lui rd imm) s = s.commit rd (upperImmediate imm) s.nextPc := rfl

/-- The mask is the remainder modulo 2^20, and the shift of a 20-bit value by 12 loses no bit (R130, D10). -/
theorem toNat_upperImmediate (imm : Word) : (upperImmediate imm).toNat = imm.toNat % 2 ^ 20 * 2 ^ 12 := by
  have hmask : (imm &&& 0x000FFFFF#32).toNat = imm.toNat % 2 ^ 20 := Nat.and_two_pow_sub_one_eq_mod imm.toNat 20
  rw [upperImmediate, BitVec.toNat_shiftLeft, hmask, Nat.shiftLeft_eq]
  omega

/-- Settles O23: LUI's words decode by its row of the table, and the value it commits is `toNat_upperImmediate`'s. -/
theorem luiLoadsTheShiftedImmediate : Obligations.LuiLoadsTheShiftedImmediate := by
  refine ⟨wordsDecodeTo_row (.lui 0#5 0#32), fun rd imm s => ?_⟩
  exact computes_of_exec_eq_commit (exec_lui rd imm s) (toNat_upperImmediate imm)

end Sys2Proof.Machine
end

section
/-! SUPPORT. The six conditional branches (42_branches.md R150): what each condition compares, what a branch answers
where it is taken and where it is not, and the settlement of O28, O29 and O30. -/

namespace Sys2Proof.Machine

/-! ### The conditions (R151 to R156) -/

section Conditions
variable (a b : Word)

@[simp] theorem conditionHolds_eq_iff : conditionHolds .eq a b = true ↔ a = b := decide_eq_true_iff

@[simp] theorem conditionHolds_ne_iff : conditionHolds .ne a b = true ↔ a ≠ b := by
  rw [conditionHolds, Bool.not_eq_true', decide_eq_false_iff_not]

@[simp] theorem conditionHolds_lt_iff : conditionHolds .lt a b = true ↔ a.toInt < b.toInt := decide_eq_true_iff

/-- R154: the exact negation of BLT on the same operands. -/
@[simp] theorem conditionHolds_ge_iff : conditionHolds .ge a b = true ↔ b.toInt ≤ a.toInt := by
  rw [conditionHolds, lessSigned, Bool.not_eq_true', decide_eq_false_iff_not, Int.not_lt]

@[simp] theorem conditionHolds_ltu_iff : conditionHolds .ltu a b = true ↔ a.toNat < b.toNat := decide_eq_true_iff

/-- R156: the exact negation of BLTU on the same operands. -/
@[simp] theorem conditionHolds_geu_iff : conditionHolds .geu a b = true ↔ b.toNat ≤ a.toNat := by
  rw [conditionHolds, lessUnsigned, Bool.not_eq_true', decide_eq_false_iff_not, Nat.not_lt]

end Conditions

/-! ### What a branch answers (R150) -/

section Branch
variable {cond : BranchCondition} {rs1 rs2 : Reg} {target : JumpTarget} {s : State}

theorem branch_of_taken_of_resolve_ok {a : Word} (htaken : conditionHolds cond (s.readReg rs1) (s.readReg rs2) = true)
    (hres : s.resolve target = .ok a) : branch cond rs1 rs2 target s = .next (s.setPc a) := by
  rw [branch, if_pos htaken, hres]

theorem branch_of_taken_of_resolve_error {f : Fault}
    (htaken : conditionHolds cond (s.readReg rs1) (s.readReg rs2) = true) (hres : s.resolve target = .error f) :
    branch cond rs1 rs2 target s = .fault f := by
  rw [branch, if_pos htaken, hres]
  rfl

/-- The target of a branch that is not taken is not resolved (D15). -/
theorem branch_of_not_taken (huntaken : ¬ conditionHolds cond (s.readReg rs1) (s.readReg rs2) = true) :
    branch cond rs1 rs2 target s = .next (s.setPc s.nextPc) := if_neg huntaken

/-- An instruction whose meaning is `branch` branches when its condition holds. -/
theorem branchesWhen_of_exec_eq_branch {i : Instr} {taken : Prop} (hexec : exec i s = branch cond rs1 rs2 target s)
    (hcond : conditionHolds cond (s.readReg rs1) (s.readReg rs2) = true ↔ taken) : BranchesWhen taken i target s := by
  refine ⟨fun a hres ht => ?_, fun a _ hnt => ?_, fun name htarget hunbound ht => ?_⟩
  · exact ⟨_, hexec.trans (branch_of_taken_of_resolve_ok (hcond.2 ht) hres), writesPc_setPc s a⟩
  · exact ⟨_, hexec.trans (branch_of_not_taken (mt hcond.1 hnt)), writesPc_setPc s s.nextPc⟩
  · have hres : s.resolve target = .error (.unknownLabel name) := htarget ▸ State.resolve_label_unbound hunbound
    exact hexec.trans (branch_of_taken_of_resolve_error (hcond.2 ht) hres)

end Branch

/-! ### The six instructions -/

section Exec
variable (rs1 rs2 : Reg) (target : JumpTarget) (s : State)

theorem exec_beq : exec (.beq rs1 rs2 target) s = branch .eq rs1 rs2 target s := rfl

theorem exec_bne : exec (.bne rs1 rs2 target) s = branch .ne rs1 rs2 target s := rfl

theorem exec_blt : exec (.blt rs1 rs2 target) s = branch .lt rs1 rs2 target s := rfl

theorem exec_bge : exec (.bge rs1 rs2 target) s = branch .ge rs1 rs2 target s := rfl

theorem exec_bltu : exec (.bltu rs1 rs2 target) s = branch .ltu rs1 rs2 target s := rfl

theorem exec_bgeu : exec (.bgeu rs1 rs2 target) s = branch .geu rs1 rs2 target s := rfl

end Exec

/-- Settles O28: the words decode by the rows of BEQ and BNE, and each is a `branch` whose condition is the equality
of the two registers or its negation. -/
theorem equalityBranchesGoToTheTargetWhenTaken : Obligations.EqualityBranchesGoToTheTargetWhenTaken := by
  refine ⟨wordsDecodeTo_row (.beq 0#5 0#5 (.offset 0#32)), wordsDecodeTo_row (.bne 0#5 0#5 (.offset 0#32)),
    fun rs1 rs2 target s => ⟨?_, ?_⟩⟩
  · exact branchesWhen_of_exec_eq_branch (exec_beq rs1 rs2 target s) (conditionHolds_eq_iff _ _)
  · exact branchesWhen_of_exec_eq_branch (exec_bne rs1 rs2 target s) (conditionHolds_ne_iff _ _)

/-- Settles O29: the words decode by the rows of BLT and BGE, and each is a `branch` whose condition compares the two
registers as signed integers. -/
theorem signedBranchesGoToTheTargetWhenTaken : Obligations.SignedBranchesGoToTheTargetWhenTaken := by
  refine ⟨wordsDecodeTo_row (.blt 0#5 0#5 (.offset 0#32)), wordsDecodeTo_row (.bge 0#5 0#5 (.offset 0#32)),
    fun rs1 rs2 target s => ⟨?_, ?_⟩⟩
  · exact branchesWhen_of_exec_eq_branch (exec_blt rs1 rs2 target s) (conditionHolds_lt_iff _ _)
  · exact branchesWhen_of_exec_eq_branch (exec_bge rs1 rs2 target s) (conditionHolds_ge_iff _ _)

/-- Settles O30: the words decode by the rows of BLTU and BGEU, and each is a `branch` whose condition compares the two
registers as unsigned integers. -/
theorem unsignedBranchesGoToTheTargetWhenTaken : Obligations.UnsignedBranchesGoToTheTargetWhenTaken := by
  refine ⟨wordsDecodeTo_row (.bltu 0#5 0#5 (.offset 0#32)), wordsDecodeTo_row (.bgeu 0#5 0#5 (.offset 0#32)),
    fun rs1 rs2 target s => ⟨?_, ?_⟩⟩
  · exact branchesWhen_of_exec_eq_branch (exec_bltu rs1 rs2 target s) (conditionHolds_ltu_iff _ _)
  · exact branchesWhen_of_exec_eq_branch (exec_bgeu rs1 rs2 target s) (conditionHolds_geu_iff _ _)

end Sys2Proof.Machine
end

section
/-! SUPPORT. The loads (43_loads.md R160): the bytes of a memory read, the signed reading of a value, what a load computes,
and the settlement of O32. -/

namespace Sys2Proof.Machine

/-- R60: the loaded word is its four window bytes, byte `i` in bits `8i` to `8i + 7`. -/
theorem State.extractLsb'_dmemLoad (s : State) (a : Word) (be : BitVec 4) {i : Nat} (hi : i < 4) :
    (s.dmemLoad a be).extractLsb' (8 * i) 8 = s.loadedByte a be i := by
  obtain rfl | rfl | rfl | rfl : i = 0 ∨ i = 1 ∨ i = 2 ∨ i = 3 := by omega
  all_goals simp (disch := decide) only [State.dmemLoad, BitVec.extractLsb'_append_eq_of_le,
    BitVec.extractLsb'_append_eq_of_add_le, Nat.reduceMul, Nat.reduceSub, BitVec.extractLsb'_eq_self]

/-- R62: a read of `n` bytes has the byte at each of the `n` addresses; their enables are set. -/
theorem State.extractLsb'_memRead (s : State) (a : Word) (n : AccessSize) {i : Nat} (hi : i < n.bytes) :
    (s.memRead a n).extractLsb' (8 * i) 8 = s.dmemByte (accessedIndex a i) := by
  have hi4 : i < 4 := lt_of_lt_of_le hi n.bytes_le
  have henabled : n.enables.getLsbD i = true := by rw [n.enables_getLsbD i hi4, decide_eq_true hi]
  rw [State.memRead, State.extractLsb'_dmemLoad s a n.enables hi4, State.loadedByte, if_pos henabled, windowIndex_eq]

theorem littleEndian_one (s : State) (a : Word) : littleEndian s a 1 = (s.dmemByte (accessedIndex a 0)).toNat := by
  simp only [littleEndian, Nat.mul_zero, Nat.pow_zero, Nat.mul_one, Nat.zero_add]

/-- R9, R10: the signed reading of a bit vector is the two's-complement reading of its value. -/
theorem toInt_eq_signedValue {n : Nat} (hn : 0 < n) (x : BitVec n) : x.toInt = signedValue n x.toNat := by
  have hpow : 2 ^ (n - 1) * 2 = 2 ^ n := Nat.two_pow_pred_mul_two hn
  have hsign : 2 * x.toNat < 2 ^ n ↔ x.toNat < 2 ^ (n - 1) := by omega
  simp only [BitVec.toInt_eq_toNat_cond, signedValue, hsign, Nat.cast_pow, Nat.cast_ofNat]

/-- R65: a signed byte load reads the low byte as signed. -/
theorem toInt_loadExtend_byte (raw : Word) :
    (loadExtend .byte raw).toInt = signedValue 8 (raw.extractLsb' 0 8).toNat := by
  rw [loadExtend, BitVec.toInt_signExtend_of_le (by decide), toInt_eq_signedValue (by decide)]

/-- R65: an unsigned byte load reads the low byte as unsigned. -/
theorem toNat_loadExtend_byteUnsigned (raw : Word) :
    (loadExtend .byteUnsigned raw).toNat = (raw.extractLsb' 0 8).toNat := by
  rw [loadExtend, BitVec.toNat_setWidth_of_le (by decide)]

/-- R160: an instruction whose meaning is `load` computes the extension of what it reads at base plus offset. -/
theorem computes_of_exec_eq_load {i : Instr} {width : LoadWidth} {rd : Reg} {address : Address} {s : State}
    {value : Word → Prop} (hexec : exec i s = load width rd address s)
    (hv : value (loadExtend width (s.memRead (addressOf s address) (loadSize width)))) : Computes i s rd value :=
  computes_of_exec_eq_commit hexec hv

theorem exec_lb (rd : Reg) (address : Address) (s : State) :
    exec (.lb rd address) s = load .byte rd address s := rfl

theorem exec_lbu (rd : Reg) (address : Address) (s : State) :
    exec (.lbu rd address) s = load .byteUnsigned rd address s := rfl

/-- Settles O32: the words decode by the rows of LB and LBU, and the low byte of what each reads, which it extends, is
the byte at the address. -/
theorem byteLoadsExtendTheByte : Obligations.ByteLoadsExtendTheByte := by
  refine ⟨wordsDecodeTo_row (.lb 0#5 ⟨0#5, 0#32⟩), wordsDecodeTo_row (.lbu 0#5 ⟨0#5, 0#32⟩), fun rd address s => ?_⟩
  have hbyte : ((s.memRead (addressOf s address) .one).extractLsb' 0 8).toNat =
      littleEndian s (addressOf s address) 1 := by
    rw [littleEndian_one, ← State.extractLsb'_memRead s (addressOf s address) .one (i := 0) (by decide)]
  constructor
  · refine computes_of_exec_eq_load (exec_lb rd address s) ?_
    rw [loadSize, toInt_loadExtend_byte, hbyte]
  · refine computes_of_exec_eq_load (exec_lbu rd address s) ?_
    rw [loadSize, toNat_loadExtend_byteUnsigned, hbyte]

end Sys2Proof.Machine
end

section
/-! SUPPORT. The stores (44_stores.md R170): what a store of any width writes, and the settlement of O35. -/

namespace Sys2Proof.Machine

/-- R170: an instruction whose meaning is `store` completes, and writes its width's low bytes of `x[rs]` at base plus
offset. -/
theorem storesBytes_of_exec_eq_store {i : Instr} {width : StoreWidth} {rs : Reg} {address : Address} {s : State}
    (hexec : exec i s = store width rs address s) : ∃ t, exec i s = .next t ∧
      StoresBytes s t (addressOf s address) (storeSize width).bytes (s.readReg rs) :=
  ⟨_, hexec, storesBytes_memWrite s (addressOf s address) (storeSize width) (s.readReg rs)⟩

theorem exec_sb (rs : Reg) (address : Address) (s : State) :
    exec (.sb rs address) s = store .byte rs address s := rfl

/-- Settles O35: the words decode by SB's row, and SB is the `store` whose width is one byte. -/
theorem byteStoreWritesOneByte : Obligations.ByteStoreWritesOneByte := by
  refine ⟨wordsDecodeTo_row (.sb 0#5 ⟨0#5, 0#32⟩), fun rs address s => ?_⟩
  exact storesBytes_of_exec_eq_store (exec_sb rs address s)

end Sys2Proof.Machine
end

section
/-! SUPPORT. The integer operations (R190) and the register-immediate instructions (45_integer_immediate.md R180): the
value each operation computes, what those instructions compute, the words that match no row, and the settlement of O38,
O39, O41 and O42. -/

namespace Sys2Proof

/-- R103: a word is no instruction when some of its bits differ from every row's in a bit that the row's mask covers. -/
theorem decodeSlot_eq_empty_of_and {w mask pattern : Word} (h : w &&& mask = pattern)
    (hrows : ∀ r ∈ opcodeTable, pattern &&& r.mask ≠ r.pattern &&& mask) : decodeSlot w = .empty := by
  unfold decodeSlot
  cases hdec : decode w with
  | error => rfl
  | ok i =>
    obtain ⟨r, hr, hsel, -⟩ := row_of_decode hdec
    have hw : w &&& r.mask = r.pattern := eq_of_beq hsel
    refine absurd ?_ (hrows r hr)
    rw [← h, ← hw, BitVec.and_assoc, BitVec.and_assoc, BitVec.and_comm mask]

/-- A set bit joins what is known of a word under a mask. -/
theorem and_or_twoPow_of_getLsbD {w mask pattern : Word} {k : Nat} (h : w &&& mask = pattern)
    (hk : w.getLsbD k = true) : w &&& (mask ||| BitVec.twoPow 32 k) = pattern ||| BitVec.twoPow 32 k := by
  rw [BitVec.and_or_distrib_left, h, BitVec.and_twoPow, if_pos hk]

/-- R107: `w[25]` is 0 in the three rows of the immediate shifts, and no other row has their opcode and funct3. -/
theorem decodeSlot_shiftImmediate_of_bit25 {w : Word}
    (h : w &&& 0x0000707F#32 ∈ [0x00001013#32, 0x00005013#32]) (h25 : w.getLsbD 25 = true) :
    decodeSlot w = .empty := by
  have hbits := and_or_twoPow_of_getLsbD (pattern := w &&& 0x0000707F#32) rfl h25
  obtain hleft | hright := List.mem_pair.1 h
  · rw [hleft] at hbits
    exact decodeSlot_eq_empty_of_and hbits (by decide)
  · rw [hright] at hbits
    exact decodeSlot_eq_empty_of_and hbits (by decide)

end Sys2Proof

namespace Sys2Proof.Machine

/-! ### The operations (R10, R190) -/

theorem toNat_oneIf_lessSigned (a b : Word) : (oneIf (lessSigned a b)).toNat = if a.toInt < b.toInt then 1 else 0 := by
  simp only [oneIf, lessSigned, decide_eq_true_eq]
  split <;> rfl

/-- The mask is the remainder modulo 32. -/
theorem shiftAmount_eq_mod (v : Word) : shiftAmount v = v.toNat % 32 := Nat.and_two_pow_sub_one_eq_mod v.toNat 5

theorem toNat_shiftLeft (a : Word) (n : Nat) : (shiftLeft a n).toNat = a.toNat * 2 ^ n % 2 ^ 32 := by
  rw [shiftLeft, BitVec.toNat_shiftLeft, Nat.shiftLeft_eq]

theorem toNat_shiftRightLogical (a : Word) (n : Nat) : (shiftRightLogical a n).toNat = a.toNat / 2 ^ n := by
  rw [shiftRightLogical, BitVec.toNat_ushiftRight, Nat.shiftRight_eq_div_pow]

/-- The integer division rounds toward minus infinity (R189): its divisor is positive. -/
theorem toInt_shiftRightArithmetic (a : Word) (n : Nat) : (shiftRightArithmetic a n).toInt = a.toInt / 2 ^ n := by
  rw [shiftRightArithmetic, BitVec.toInt_sshiftRight, Int.shiftRight_eq_div_pow, Nat.cast_pow, Nat.cast_ofNat]

/-! ### The nine instructions (R180) -/

/-- R180: an instruction whose meaning is `integerImmediate` computes the operation's result. -/
theorem computes_of_exec_eq_integerImmediate {i : Instr} {op : IntegerImmediateOp} {rd rs1 : Reg} {imm : Word}
    {s : State} {value : Word → Prop} (hexec : exec i s = integerImmediate op rd rs1 imm s)
    (hv : value (integerImmediateResult op (s.readReg rs1) imm)) : Computes i s rd value :=
  computes_of_exec_eq_commit hexec hv

section Exec
variable (rd rs1 : Reg) (imm : Word) (s : State)

theorem exec_addi : exec (.addi rd rs1 imm) s = integerImmediate .add rd rs1 imm s := rfl

theorem exec_slti : exec (.slti rd rs1 imm) s = integerImmediate .slt rd rs1 imm s := rfl

theorem exec_xori : exec (.xori rd rs1 imm) s = integerImmediate .xor rd rs1 imm s := rfl

theorem exec_ori : exec (.ori rd rs1 imm) s = integerImmediate .or rd rs1 imm s := rfl

theorem exec_andi : exec (.andi rd rs1 imm) s = integerImmediate .and rd rs1 imm s := rfl

theorem exec_slli : exec (.slli rd rs1 imm) s = integerImmediate .sll rd rs1 imm s := rfl

theorem exec_srli : exec (.srli rd rs1 imm) s = integerImmediate .srl rd rs1 imm s := rfl

theorem exec_srai : exec (.srai rd rs1 imm) s = integerImmediate .sra rd rs1 imm s := rfl

end Exec

/-- Settles O38: the words decode by ADDI's row, and the sum of two patterns is the sum of their values modulo 2^32. -/
theorem addiAddsTheImmediate : Obligations.AddiAddsTheImmediate := by
  refine ⟨wordsDecodeTo_row (.addi 0#5 0#5 0#32), fun rd rs1 imm s => ?_⟩
  exact computes_of_exec_eq_integerImmediate (exec_addi rd rs1 imm s) (BitVec.toNat_add _ _)

/-- Settles O39: the words decode by SLTI's row, and the value is `toNat_oneIf_lessSigned`'s. -/
theorem sltiComparesSigned : Obligations.SltiComparesSigned := by
  refine ⟨wordsDecodeTo_row (.slti 0#5 0#5 0#32), fun rd rs1 imm s => ?_⟩
  exact computes_of_exec_eq_integerImmediate (exec_slti rd rs1 imm s) (toNat_oneIf_lessSigned _ _)

/-- Settles O41: the words decode by the rows of XORI, ORI and ANDI, and each result is the bitwise operation on the
register and the immediate, which acts on each bit alone. -/
theorem bitwiseImmediatesCombineEveryBit : Obligations.BitwiseImmediatesCombineEveryBit := by
  refine ⟨wordsDecodeTo_row (.xori 0#5 0#5 0#32), wordsDecodeTo_row (.ori 0#5 0#5 0#32),
    wordsDecodeTo_row (.andi 0#5 0#5 0#32), fun rd rs1 imm s => ⟨?_, ?_, ?_⟩⟩
  · exact computes_of_exec_eq_integerImmediate (exec_xori rd rs1 imm s) fun _ _ => BitVec.getLsbD_xor
  · exact computes_of_exec_eq_integerImmediate (exec_ori rd rs1 imm s) fun _ _ => BitVec.getLsbD_or
  · exact computes_of_exec_eq_integerImmediate (exec_andi rd rs1 imm s) fun _ _ => BitVec.getLsbD_and

/-- Settles O42: the words decode by the rows of SLLI, SRLI and SRAI, a word with `w[25]` set matches none of them
(`decodeSlot_shiftImmediate_of_bit25`), and each result is the shift by the remainder that `shiftAmount` takes. -/
theorem shiftImmediatesShiftByTheLowFiveBits : Obligations.ShiftImmediatesShiftByTheLowFiveBits := by
  refine ⟨wordsDecodeTo_row (.slli 0#5 0#5 0#32), wordsDecodeTo_row (.srli 0#5 0#5 0#32),
    wordsDecodeTo_row (.srai 0#5 0#5 0#32), fun w => decodeSlot_shiftImmediate_of_bit25, fun rd rs1 imm s => ?_⟩
  rw [← shiftAmount_eq_mod]
  refine ⟨?_, ?_, ?_⟩
  · exact computes_of_exec_eq_integerImmediate (exec_slli rd rs1 imm s) (toNat_shiftLeft _ _)
  · exact computes_of_exec_eq_integerImmediate (exec_srli rd rs1 imm s) (toNat_shiftRightLogical _ _)
  · exact computes_of_exec_eq_integerImmediate (exec_srai rd rs1 imm s) (toInt_shiftRightArithmetic _ _)

end Sys2Proof.Machine
end

section
/-! SUPPORT. The register-register instructions (46_integer_register.md R200): what those instructions compute, and the
settlement of O43, O44, O45 and O46. The values of the shifts and of the signed comparison are those of the
register-immediate family. -/

namespace Sys2Proof.Machine

/-! ### The operations that no immediate has a lemma for (R10) -/

theorem toNat_oneIf_lessUnsigned (a b : Word) : (oneIf (lessUnsigned a b)).toNat = if a.toNat < b.toNat then 1 else 0 := by
  simp only [oneIf, lessUnsigned, decide_eq_true_eq]
  split <;> rfl

/-- The wrapping difference of patterns is the difference of their values modulo 2^32: a borrow adds 2^32 (R202). -/
theorem toNat_sub_eq_emod (a b : Word) : ((a - b).toNat : Int) = ((a.toNat : Int) - b.toNat) % 2 ^ 32 := by
  have hb : b.toNat < 2 ^ 32 := b.isLt
  rw [BitVec.toNat_sub]
  omega

/-! ### The ten instructions (R200) -/

/-- R200: an instruction whose meaning is `integerRegister` computes the operation's result on the values before the
step, whichever of the registers coincide. -/
theorem computes_of_exec_eq_integerRegister {i : Instr} {op : IntegerRegisterOp} {rd rs1 rs2 : Reg} {s : State}
    {value : Word → Prop} (hexec : exec i s = integerRegister op rd rs1 rs2 s)
    (hv : value (integerRegisterResult op (s.readReg rs1) (s.readReg rs2))) : Computes i s rd value :=
  computes_of_exec_eq_commit hexec hv

section Exec
variable (rd rs1 rs2 : Reg) (s : State)

theorem exec_add : exec (.add rd rs1 rs2) s = integerRegister .add rd rs1 rs2 s := rfl

theorem exec_sub : exec (.sub rd rs1 rs2) s = integerRegister .sub rd rs1 rs2 s := rfl

theorem exec_sll : exec (.sll rd rs1 rs2) s = integerRegister .sll rd rs1 rs2 s := rfl

theorem exec_slt : exec (.slt rd rs1 rs2) s = integerRegister .slt rd rs1 rs2 s := rfl

theorem exec_sltu : exec (.sltu rd rs1 rs2) s = integerRegister .sltu rd rs1 rs2 s := rfl

theorem exec_xor : exec (.xor rd rs1 rs2) s = integerRegister .xor rd rs1 rs2 s := rfl

theorem exec_srl : exec (.srl rd rs1 rs2) s = integerRegister .srl rd rs1 rs2 s := rfl

theorem exec_sra : exec (.sra rd rs1 rs2) s = integerRegister .sra rd rs1 rs2 s := rfl

theorem exec_or : exec (.or rd rs1 rs2) s = integerRegister .or rd rs1 rs2 s := rfl

theorem exec_and : exec (.and rd rs1 rs2) s = integerRegister .and rd rs1 rs2 s := rfl

end Exec

/-- Settles O43: the words decode by the rows of ADD and SUB; the sum of two patterns is the sum of their values modulo
2^32, and their difference is `toNat_sub_eq_emod`'s. -/
theorem addAndSubWrap : Obligations.AddAndSubWrap := by
  refine ⟨wordsDecodeTo_row (.add 0#5 0#5 0#5), wordsDecodeTo_row (.sub 0#5 0#5 0#5), fun rd rs1 rs2 s => ⟨?_, ?_⟩⟩
  · exact computes_of_exec_eq_integerRegister (exec_add rd rs1 rs2 s) (BitVec.toNat_add _ _)
  · exact computes_of_exec_eq_integerRegister (exec_sub rd rs1 rs2 s) (toNat_sub_eq_emod _ _)

/-- Settles O44: the words decode by the rows of SLL, SRL and SRA, and each result is the shift by the remainder that
`shiftAmount` takes of `x[rs2]`. -/
theorem registerShiftsUseTheLowFiveBits : Obligations.RegisterShiftsUseTheLowFiveBits := by
  refine ⟨wordsDecodeTo_row (.sll 0#5 0#5 0#5), wordsDecodeTo_row (.srl 0#5 0#5 0#5),
    wordsDecodeTo_row (.sra 0#5 0#5 0#5), fun rd rs1 rs2 s => ?_⟩
  rw [← shiftAmount_eq_mod]
  refine ⟨?_, ?_, ?_⟩
  · exact computes_of_exec_eq_integerRegister (exec_sll rd rs1 rs2 s) (toNat_shiftLeft _ _)
  · exact computes_of_exec_eq_integerRegister (exec_srl rd rs1 rs2 s) (toNat_shiftRightLogical _ _)
  · exact computes_of_exec_eq_integerRegister (exec_sra rd rs1 rs2 s) (toInt_shiftRightArithmetic _ _)

/-- Settles O45: the words decode by the rows of SLT and SLTU, and the values are those of `toNat_oneIf_lessSigned` and
`toNat_oneIf_lessUnsigned`. -/
theorem setLessThanWritesOneOrZero : Obligations.SetLessThanWritesOneOrZero := by
  refine ⟨wordsDecodeTo_row (.slt 0#5 0#5 0#5), wordsDecodeTo_row (.sltu 0#5 0#5 0#5), fun rd rs1 rs2 s => ⟨?_, ?_⟩⟩
  · exact computes_of_exec_eq_integerRegister (exec_slt rd rs1 rs2 s) (toNat_oneIf_lessSigned _ _)
  · exact computes_of_exec_eq_integerRegister (exec_sltu rd rs1 rs2 s) (toNat_oneIf_lessUnsigned _ _)

/-- Settles O46: the words decode by the rows of XOR, OR and AND, and each result is the bitwise operation on the two
registers, which acts on each bit alone. -/
theorem bitwiseRegistersCombineEveryBit : Obligations.BitwiseRegistersCombineEveryBit := by
  refine ⟨wordsDecodeTo_row (.xor 0#5 0#5 0#5), wordsDecodeTo_row (.or 0#5 0#5 0#5),
    wordsDecodeTo_row (.and 0#5 0#5 0#5), fun rd rs1 rs2 s => ⟨?_, ?_, ?_⟩⟩
  · exact computes_of_exec_eq_integerRegister (exec_xor rd rs1 rs2 s) fun _ _ => BitVec.getLsbD_xor
  · exact computes_of_exec_eq_integerRegister (exec_or rd rs1 rs2 s) fun _ _ => BitVec.getLsbD_or
  · exact computes_of_exec_eq_integerRegister (exec_and rd rs1 rs2 s) fun _ _ => BitVec.getLsbD_and

end Sys2Proof.Machine
end

section
/-! SUPPORT. The loader (70_reset_and_hazards.md R266 to R269): what a load keeps, where its second part begins, which
records it leaves in the slots, when it fails, and the settlement of O52. -/

namespace Sys2Proof.Machine

theorem State.slot_reset (k : Nat) : State.reset.slot k = .empty :=
  show decodeSlot 0#32 = .empty by decide

theorem State.labelAddress_reset (name : LabelName) : State.reset.labelAddress name = none := rfl

theorem loadLines_label (name : LabelName) (p : Program) (addr : Nat) (s : State) :
    loadLines (.label name :: p) addr s = loadLines p addr (s.bindLabel name (BitVec.ofNat 32 addr)) := rfl

/-- An instruction line that loads finds a slot at its address, and the other lines load after its write. -/
theorem loadLines_instruction_ok {i : Instr} {p : Program} {addr : Nat} {s t : State}
    (h : loadLines (.instruction i :: p) addr s = .ok t) :
    addr / 4 < imemSlots ∧ loadLines p (addr + 4) (s.putSlot (addr / 4) (.record i)) = .ok t := by
  rw [loadLines] at h
  split at h
  case isTrue => nomatch h
  case isFalse hslot => exact ⟨Nat.lt_of_not_le hslot, h⟩

/-- R266: a load writes slots and binds the labels the program declares; what those writes keep, the load keeps. -/
theorem loadLines_keeps {P : State → Prop} {p : Program} (hslot : ∀ s k i, P s → P (s.putSlot k (.record i)))
    (hlabel : ∀ s name a, ProgramLine.label name ∈ p → P s → P (s.bindLabel name a)) {addr : Nat} {s t : State}
    (h : loadLines p addr s = .ok t) (hs : P s) : P t := by
  induction p generalizing addr s with
  | nil => exact Except.ok.inj h ▸ hs
  | cons line p ih =>
    have ih := @ih fun s name a hmem => hlabel s name a (List.mem_cons_of_mem _ hmem)
    cases line with
    | instruction i => exact ih (loadLines_instruction_ok h).2 (hslot _ _ _ hs)
    | label name => exact ih h (hlabel _ _ _ List.mem_cons_self hs)

/-- R266: the running address advances by 4 over each instruction line and over no label line. -/
theorem loadLines_append (p q : Program) (addr : Nat) (s : State) : loadLines (p ++ q) addr s =
    (loadLines p addr s).bind (loadLines q (addr + 4 * (instructionsOf p).length)) := by
  induction p generalizing addr s with
  | nil => rfl
  | cons line p ih =>
    cases line with
    | instruction i =>
      have hlen : addr + 4 * (instructionsOf (.instruction i :: p)).length =
          addr + 4 + 4 * (instructionsOf p).length := by
        rw [instructionsOf, List.length_cons]; omega
      rw [hlen, List.cons_append, loadLines, loadLines]
      split
      · rfl
      · exact ih _ _
    | label name => exact ih _ _

/-- Loading touches neither the pc nor a register nor data memory (R265). -/
theorem loadLines_frame {p : Program} {addr : Nat} {s t : State} (h : loadLines p addr s = .ok t) :
    t.pc = s.pc ∧ t.regs = s.regs ∧ t.dmem = s.dmem :=
  loadLines_keeps (P := fun u => u.pc = s.pc ∧ u.regs = s.regs ∧ u.dmem = s.dmem) (fun _ _ _ hu => hu)
    (fun _ _ _ _ hu => hu) h ⟨rfl, rfl, rfl⟩

/-- A name the lines do not declare keeps its binding, or its absence. -/
theorem labelAddress_loadLines_of_not_mem {p : Program} {addr : Nat} {s t : State} {name : LabelName}
    (hname : ProgramLine.label name ∉ p) (h : loadLines p addr s = .ok t) :
    t.labelAddress name = s.labelAddress name := by
  refine loadLines_keeps (P := fun u => u.labelAddress name = s.labelAddress name) (fun _ _ _ hu => hu) ?_ h rfl
  intro u m a hm hu
  have hne : name ≠ m := fun heq => hname (heq ▸ hm)
  rw [State.labelAddress_bindLabel, if_neg hne, hu]

/-- R267: a name is bound to the running address at its last declaration. -/
theorem labelAddress_loadLines_last {before after : Program} {addr : Nat} {s t : State} {name : LabelName}
    (hlast : ProgramLine.label name ∉ after) (h : loadLines (before ++ .label name :: after) addr s = .ok t) :
    t.labelAddress name = some (BitVec.ofNat 32 (addr + 4 * (instructionsOf before).length)) := by
  rw [loadLines_append] at h
  cases hbefore : loadLines before addr s with
  | error e => rw [hbefore] at h; nomatch h
  | ok u =>
    rw [hbefore, Except.bind, loadLines_label] at h
    rw [labelAddress_loadLines_of_not_mem hlast h, State.labelAddress_bindLabel, if_pos rfl]

/-- The slots from 0 on contain the records of a list, and those beyond its last are Empty. -/
def State.containsRecords (s : State) (is : List Instr) : Prop :=
  ∀ k, s.slot k = match is[k]? with | some i => .instr i | none => .empty

theorem State.containsRecords_reset : State.reset.containsRecords [] := State.slot_reset

/-- A record written to the first slot beyond a list is that list's next. -/
theorem State.containsRecords_putSlot {s : State} {is : List Instr} (h : s.containsRecords is) (i : Instr) :
    (s.putSlot is.length (.record i)).containsRecords (is ++ [i]) := by
  intro k
  rw [State.slot_putSlot]
  split
  case isTrue hk => rw [hk, List.getElem?_concat_length]; rfl
  case isFalse hk =>
    have hget : (is ++ [i])[k]? = is[k]? := by
      rcases Nat.lt_or_gt_of_ne hk with hlt | hgt
      · exact List.getElem?_append_left hlt
      · rw [List.getElem?_eq_none (by rw [List.length_append]; exact hgt), List.getElem?_eq_none hgt.le]
    rw [hget]
    exact h k

/-- R266: a load puts its instruction lines, in order, in the slots that follow those already written. -/
theorem containsRecords_loadLines {p : Program} {is : List Instr} {s t : State} (hs : s.containsRecords is)
    (h : loadLines p (4 * is.length) s = .ok t) : t.containsRecords (is ++ instructionsOf p) := by
  induction p generalizing is s with
  | nil => rw [instructionsOf, List.append_nil]; exact Except.ok.inj h ▸ hs
  | cons line p ih =>
    cases line with
    | instruction i =>
      have hrest := (loadLines_instruction_ok h).2
      rw [Nat.mul_div_cancel_left _ (by decide)] at hrest
      have hnext := ih (State.containsRecords_putSlot hs i) (by rw [List.length_append]; exact hrest)
      rwa [List.append_assoc] at hnext
    | label name => exact ih (s := s.bindLabel name _) hs h

/-- R269: with more instruction lines than slots left, the load fails at the first address past the memory. -/
theorem loadLines_error_of_tooLarge {p : Program} {k : Nat} (s : State) (hk : k ≤ imemSlots)
    (hlarge : imemSlots < k + (instructionsOf p).length) :
    loadLines p (4 * k) s = .error (.programTooLarge imemBytes) := by
  induction p generalizing k s with
  | nil => exact absurd hk (Nat.not_le_of_lt hlarge)
  | cons line p ih =>
    cases line with
    | instruction i =>
      rw [instructionsOf, List.length_cons] at hlarge
      rw [loadLines, Nat.mul_div_cancel_left k (by decide)]
      split
      case isTrue hfull => rw [Nat.le_antisymm hk hfull]; rfl
      case isFalse hslot => exact ih (k := k + 1) _ (by omega) (by omega)
    | label name => exact ih _ hk hlarge

/-- Settles O52: each clause is the loader's lemma for the running address 0 and the reset state, where no slot is
filled and no name is bound. -/
theorem loaderBuildsTheImageAndTheLabelTable : Obligations.LoaderBuildsTheImageAndTheLabelTable := by
  refine ⟨fun p s hload => ⟨?slots, ?declared, ?undeclared, loadLines_frame hload⟩,
    fun p hlarge => ⟨imemBytes, ?large⟩⟩
  case slots => exact containsRecords_loadLines State.containsRecords_reset hload
  case declared =>
    rintro before after name rfl hlast
    rw [labelAddress_loadLines_last hlast hload, Nat.zero_add]
  case undeclared =>
    intro name hname
    rw [labelAddress_loadLines_of_not_mem hname hload, State.labelAddress_reset]
  case large => exact loadLines_error_of_tooLarge (k := 0) State.reset (Nat.zero_le _) (by rwa [Nat.zero_add])

end Sys2Proof.Machine
end

section
/-! SUPPORT. What a completed step did, by the cases of `exec_cases`: which memories and registers it keeps (10_state.md
R22, R24, R29, R31; 20_memory.md R61), and the settlement of O8, O9 and O10. -/

namespace Sys2Proof.Machine

/-- A step that completes executed the record it fetched (R231). -/
theorem exec_of_step_next {s t : State} (h : step s = .next t) : ∃ i, s.fetch = .instr i ∧ exec i s = .next t := by
  rcases step_cases s with ⟨i, hfetch, hstep⟩ | ⟨-, hstep⟩
  · exact ⟨i, hfetch, hstep.symm.trans h⟩
  · nomatch hstep.symm.trans h

/-- A completed instruction committed its destination, or set the pc, or stored. -/
theorem exec_next_cases {i : Instr} {s t : State} (h : exec i s = .next t) :
    (∃ rd v next, i.destination = some rd ∧ i.isStore = false ∧ t = (s.writeReg rd v).setPc next) ∨
      (∃ next, i.isStore = false ∧ t = s.setPc next) ∨
      (∃ a n v, i.isStore = true ∧ t = (s.memWrite a n v).setPc s.nextPc) := by
  rcases exec_cases i s with ⟨rd, v, next, hd, hst, he⟩ | ⟨next, -, hst, he⟩ | ⟨a, n, v, -, hst, he⟩ | ⟨_, -, -, he⟩
  · exact .inl ⟨rd, v, next, hd, hst, by injection h.symm.trans he⟩
  · exact .inr (.inl ⟨next, hst, by injection h.symm.trans he⟩)
  · exact .inr (.inr ⟨a, n, v, hst, by injection h.symm.trans he⟩)
  · nomatch h.symm.trans he

theorem exec_keeps_imem_and_labels {i : Instr} {s t : State} (h : exec i s = .next t) :
    t.imem = s.imem ∧ t.labels = s.labels := by
  rcases exec_next_cases h with ⟨rd, v, next, -, -, rfl⟩ | ⟨next, -, rfl⟩ | ⟨a, n, v, -, rfl⟩
  · exact ⟨s.writeReg_imem rd v, s.writeReg_labels rd v⟩
  · exact ⟨rfl, rfl⟩
  · exact ⟨s.memWrite_imem v a n, s.memWrite_labels v a n⟩

theorem exec_keeps_memory_wf {i : Instr} {s t : State} (h : exec i s = .next t) (hs : Memory.wf s.dmem) :
    Memory.wf t.dmem := by
  rcases exec_next_cases h with ⟨rd, v, next, -, -, rfl⟩ | ⟨next, -, rfl⟩ | ⟨a, n, v, -, rfl⟩
  · rw [State.setPc_dmem, State.writeReg_dmem]
    exact hs
  · exact hs
  · exact memory_wf_memWrite hs

/-- An instruction that is no store keeps every data byte. -/
theorem dmemByte_exec_of_not_store {i : Instr} {s t : State} (h : exec i s = .next t) (hi : ¬ i.isStore = true)
    (k : Nat) : t.dmemByte k = s.dmemByte k := by
  rcases exec_next_cases h with ⟨rd, v, next, -, -, rfl⟩ | ⟨next, -, rfl⟩ | ⟨a, n, v, hstore, rfl⟩
  · rw [State.dmemByte_setPc, State.dmemByte_writeReg]
  · rfl
  · exact absurd hstore hi

/-- R24: a completed instruction keeps every register but its destination. -/
theorem readReg_exec_of_ne_destination {i : Instr} {s t : State} {r : Reg} (h : exec i s = .next t)
    (hr : i.destination ≠ some r) : t.readReg r = s.readReg r := by
  rcases exec_next_cases h with ⟨rd, v, next, hrd, -, rfl⟩ | ⟨next, -, rfl⟩ | ⟨a, n, v, -, rfl⟩
  · have hne : r ≠ rd := fun heq => hr (heq ▸ hrd)
    rw [State.readReg_setPc, State.readReg_writeReg_of_ne s v hne]
  · rfl
  · exact State.readReg_congr (s.memWrite_regs v a n) r

/-- Settles O9: what the executed record keeps, the step keeps. -/
theorem stepNeverWritesInstructionMemoryOrLabels : Obligations.StepNeverWritesInstructionMemoryOrLabels := by
  intro s t h
  obtain ⟨i, -, hexec⟩ := exec_of_step_next h
  exact exec_keeps_imem_and_labels hexec

/-- Settles O8: data memory keeps its form whatever the record writes, and the other two lists are those of the state
before. -/
theorem stepKeepsCanonicalForm : Obligations.StepKeepsCanonicalForm := by
  rintro s t ⟨hdmem, himem, hlabels⟩ h
  obtain ⟨i, -, hexec⟩ := exec_of_step_next h
  obtain ⟨himem_eq, hlabels_eq⟩ := exec_keeps_imem_and_labels hexec
  exact ⟨exec_keeps_memory_wf hexec hdmem, himem_eq ▸ himem, hlabels_eq ▸ hlabels⟩

/-- Settles O10: a record that is no store would have kept the byte. -/
theorem onlyStoresChangeDataMemory : Obligations.OnlyStoresChangeDataMemory := by
  intro s t k h hk
  obtain ⟨i, hfetch, hexec⟩ := exec_of_step_next h
  exact ⟨i, hfetch, by_contra fun hi => hk (dmemByte_exec_of_not_store hexec hi k)⟩

end Sys2Proof.Machine
end

section
/-! SUPPORT. What an instruction reads and what it does with it: every instruction computes an effect from the pc, the
data bytes, the labels and its source registers, and then applies it (10_state.md R24, 60_exceptions.md R231); and the
settlement of O14, O11 and O12. -/

namespace Sys2Proof.Machine

/-! ### Effects -/

/-- What an instruction has decided to do once it has read its operands (R231 stages 3 and 4). -/
inductive Effect where
  | commit (rd : Reg) (v next : Word)
  | goTo (next : Word)
  | store (a : Word) (n : AccessSize) (v next : Word)
  | fail (f : Fault)

/-- The outcome of an effect in a state. -/
def Effect.apply (s : State) : Effect → StepOutcome
  | .commit rd v next => s.commit rd v next
  | .goTo next => .next (s.setPc next)
  | .store a n v next => .next ((s.memWrite a n v).setPc next)
  | .fail f => .fault f

/-- The effect writes the register that `destination` names, and none where it names none (R24). -/
def Effect.WritesAt (destination : Option Reg) : Effect → Prop
  | .commit rd _ _ => destination = some rd
  | .goTo _ => destination = none
  | .store _ _ _ _ => destination = none
  | .fail _ => True

/-- The states agree on what an instruction with these source registers may read. -/
structure AgreesOn (sources : List Reg) (s t : State) : Prop where
  pc : s.pc = t.pc
  bytes : ∀ k, s.dmemByte k = t.dmemByte k
  labels : s.labels = t.labels
  registers : ∀ r ∈ sources, s.readReg r = t.readReg r

/-- The instruction applies the effect, which depends on what R24 lets its family read. -/
structure HasEffect (i : Instr) (effect : State → Effect) : Prop where
  exec_eq : ∀ s, exec i s = (effect s).apply s
  writesAt : ∀ s, (effect s).WritesAt i.destination
  congr : ∀ s t, AgreesOn i.sources s t → effect s = effect t

/-! ### The effect of each family -/

theorem State.resolve_congr {s t : State} (hpc : s.pc = t.pc) (hlabels : s.labels = t.labels) (target : JumpTarget) :
    s.resolve target = t.resolve target := by
  cases target with
  | label name => simp only [State.resolve, State.labelAddress_congr hlabels]
  | offset off => simp only [State.resolve, hpc]

theorem State.nextPc_congr {s t : State} (hpc : s.pc = t.pc) : s.nextPc = t.nextPc := by
  rw [State.nextPc, hpc, State.nextPc]

theorem hasEffect_of_commit {i : Instr} {rd : Reg} {v next : State → Word}
    (hexec : ∀ s, exec i s = s.commit rd (v s) (next s)) (hdest : i.destination = some rd)
    (hcongr : ∀ s t, AgreesOn i.sources s t → v s = v t ∧ next s = next t) : ∃ effect, HasEffect i effect := by
  refine ⟨fun s => .commit rd (v s) (next s), hexec, fun _ => hdest, fun s t h => ?_⟩
  obtain ⟨hv, hnext⟩ := hcongr s t h
  simp only [hv, hnext]

theorem hasEffect_of_integerImmediate {i : Instr} {op : IntegerImmediateOp} {rd rs1 : Reg} {imm : Word}
    (hexec : ∀ s, exec i s = integerImmediate op rd rs1 imm s) (hdest : i.destination = some rd)
    (hsources : i.sources = [rs1]) : ∃ effect, HasEffect i effect := by
  refine hasEffect_of_commit hexec hdest fun s t h => ⟨?_, State.nextPc_congr h.pc⟩
  rw [h.registers rs1 (by simp [hsources])]

theorem hasEffect_of_integerRegister {i : Instr} {op : IntegerRegisterOp} {rd rs1 rs2 : Reg}
    (hexec : ∀ s, exec i s = integerRegister op rd rs1 rs2 s) (hdest : i.destination = some rd)
    (hsources : i.sources = [rs1, rs2]) : ∃ effect, HasEffect i effect := by
  refine hasEffect_of_commit hexec hdest fun s t h => ⟨?_, State.nextPc_congr h.pc⟩
  rw [h.registers rs1 (by simp [hsources]), h.registers rs2 (by simp [hsources])]

theorem hasEffect_of_load {i : Instr} {width : LoadWidth} {rd : Reg} {address : Address}
    (hexec : ∀ s, exec i s = load width rd address s) (hdest : i.destination = some rd)
    (hsources : i.sources = [address.base]) : ∃ effect, HasEffect i effect := by
  refine hasEffect_of_commit hexec hdest fun s t h => ⟨?_, State.nextPc_congr h.pc⟩
  rw [State.effectiveAddress, State.effectiveAddress, h.registers address.base (by simp [hsources]),
    State.memRead_congr h.bytes]

theorem hasEffect_of_store {i : Instr} {width : StoreWidth} {rs : Reg} {address : Address}
    (hexec : ∀ s, exec i s = store width rs address s) (hdest : i.destination = none)
    (hsources : i.sources = [address.base, rs]) : ∃ effect, HasEffect i effect := by
  refine ⟨fun s => .store (s.effectiveAddress address) (storeSize width) (s.readReg rs) s.nextPc, hexec,
    fun _ => hdest, fun s t h => ?_⟩
  rw [State.effectiveAddress, State.effectiveAddress, h.registers address.base (by simp [hsources]),
    h.registers rs (by simp [hsources]), State.nextPc_congr h.pc]

/-- What a transfer of control does once its target is resolved, or could not be (R142). -/
def resolvedEffect (onTarget : Word → Effect) : Except Fault Word → Effect
  | .ok a => onTarget a
  | .error f => .fail f

/-- The effect of JAL (R140). -/
def jalEffect (rd : Reg) (target : JumpTarget) (s : State) : Effect :=
  resolvedEffect (.commit rd s.nextPc) (s.resolve target)

/-- The effect of a branch (R150). -/
def branchEffect (cond : BranchCondition) (rs1 rs2 : Reg) (target : JumpTarget) (s : State) : Effect :=
  if conditionHolds cond (s.readReg rs1) (s.readReg rs2) then resolvedEffect .goTo (s.resolve target)
  else .goTo s.nextPc

theorem hasEffect_jal (rd : Reg) (target : JumpTarget) : HasEffect (.jal rd target) (jalEffect rd target) := by
  refine ⟨fun s => ?exec, fun s => ?writes, fun s t h => ?congr⟩
  case exec =>
    rw [exec, execJal, jalEffect]
    cases s.resolve target <;> rfl
  case writes =>
    rw [jalEffect]
    cases s.resolve target
    · trivial
    · rfl
  case congr => rw [jalEffect, State.resolve_congr h.pc h.labels, State.nextPc_congr h.pc, jalEffect]

theorem hasEffect_of_branch {i : Instr} {cond : BranchCondition} {rs1 rs2 : Reg} {target : JumpTarget}
    (hexec : ∀ s, exec i s = branch cond rs1 rs2 target s) (hdest : i.destination = none)
    (hsources : i.sources = [rs1, rs2]) : ∃ effect, HasEffect i effect := by
  refine ⟨branchEffect cond rs1 rs2 target, fun s => ?exec, fun s => ?writes, fun s t h => ?congr⟩
  case exec =>
    rw [hexec, branch, branchEffect]
    split
    · cases s.resolve target <;> rfl
    · rfl
  case writes =>
    rw [branchEffect]
    split
    · cases s.resolve target
      · trivial
      · exact hdest
    · exact hdest
  case congr =>
    rw [branchEffect, h.registers rs1 (by simp [hsources]), h.registers rs2 (by simp [hsources]),
      State.resolve_congr h.pc h.labels, State.nextPc_congr h.pc, branchEffect]

/-- Every instruction computes an effect from what its family reads, and applies it. -/
theorem exists_hasEffect (i : Instr) : ∃ effect, HasEffect i effect := by
  cases i with
  | lui rd imm => exact hasEffect_of_commit (exec_lui rd imm) rfl fun s t h => ⟨rfl, State.nextPc_congr h.pc⟩
  | auipc rd imm =>
    refine hasEffect_of_commit (next := State.nextPc) (v := fun s => s.pc + upperImmediate imm) (fun _ => rfl) rfl ?_
    exact fun s t h => ⟨by rw [h.pc], State.nextPc_congr h.pc⟩
  | jalr rd base offset =>
    refine hasEffect_of_commit (v := State.nextPc) (next := fun s => (s.readReg base + offset) &&& 0xFFFFFFFE#32)
      (fun _ => rfl) rfl ?_
    exact fun s t h => ⟨State.nextPc_congr h.pc, by rw [h.registers base (by simp [Instr.sources])]⟩
  | jal rd target => exact ⟨_, hasEffect_jal rd target⟩
  | beq | bne | blt | bge | bltu | bgeu => exact hasEffect_of_branch (fun _ => rfl) rfl rfl
  | lb | lh | lw | lbu | lhu => exact hasEffect_of_load (fun _ => rfl) rfl rfl
  | sb | sh | sw => exact hasEffect_of_store (fun _ => rfl) rfl rfl
  | addi | slti | sltiu | xori | ori | andi | slli | srli | srai =>
    exact hasEffect_of_integerImmediate (fun _ => rfl) rfl rfl
  | add | sub | sll | slt | sltu | xor | srl | sra | or | and =>
    exact hasEffect_of_integerRegister (fun _ => rfl) rfl rfl

end Sys2Proof.Machine
end

section
/-! SUPPORT. An effect applied to two states: states that agree on the reads give the same result (10_state.md R24), and
the instruction memory is carried along unread (20_memory.md R51, R53); with these the settlement of O14, O11 and O12. -/

namespace Sys2Proof.Machine

/-! ### The same effect in states with the same data bytes -/

theorem State.dmemByte_storedByte_congr {s t : State} (h : ∀ k, s.dmemByte k = t.dmemByte k) (a : Word)
    (be : BitVec 4) (v : Word) (i k : Nat) : (s.storedByte a be v i).dmemByte k = (t.storedByte a be v i).dmemByte k := by
  rw [State.dmemByte_storedByte, State.dmemByte_storedByte, h]

theorem State.dmemByte_memWrite_congr {s t : State} (h : ∀ k, s.dmemByte k = t.dmemByte k) (a : Word)
    (n : AccessSize) (v : Word) (k : Nat) : (s.memWrite a n v).dmemByte k = (t.memWrite a n v).dmemByte k :=
  State.dmemByte_storedByte_congr (State.dmemByte_storedByte_congr (State.dmemByte_storedByte_congr
    (State.dmemByte_storedByte_congr h a _ v 0) a _ v 1) a _ v 2) a _ v 3 k

/-- An effect gives the same result in two states with the same data bytes. -/
theorem Effect.sameResult_apply {i : Instr} {e : Effect} (hwrites : e.WritesAt i.destination) {s t : State}
    (hbytes : ∀ k, s.dmemByte k = t.dmemByte k) : SameResult i (e.apply s) (e.apply t) := by
  have hnone : i.destination = none → ∀ u u' : State, ∀ rd, i.destination = some rd → u.readReg rd = u'.readReg rd :=
    fun hdest _ _ rd hrd => nomatch hdest.symm.trans hrd
  cases e with
  | commit rd v next =>
    refine ⟨rfl, fun k => ?_, fun r hr => ?_⟩
    · simp only [State.dmemByte_setPc, State.dmemByte_writeReg, hbytes]
    · obtain rfl : rd = r := Option.some.inj (hwrites.symm.trans hr)
      simp only [State.readReg_setPc, State.readReg_writeReg, if_true]
  | goTo next => exact ⟨rfl, hbytes, hnone hwrites _ _⟩
  | store a n v next => exact ⟨rfl, State.dmemByte_memWrite_congr hbytes a n v, hnone hwrites _ _⟩
  | fail f => rfl

/-- Settles O11: a completed instruction keeps what is not its destination, and its effect is the same in states that
agree on its reads. -/
theorem registersReadAndWrittenByFamily : Obligations.RegistersReadAndWrittenByFamily := by
  refine ⟨fun i s t r => readReg_exec_of_ne_destination, fun i s t hpc hbytes hlabels hregs => ?_⟩
  obtain ⟨effect, heffect⟩ := exists_hasEffect i
  rw [heffect.exec_eq, heffect.exec_eq, ← heffect.congr s t ⟨hpc, hbytes, hlabels, hregs⟩]
  exact Effect.sameResult_apply (heffect.writesAt s) hbytes

/-! ### Another instruction memory -/

/-- The state with another instruction memory. -/
def State.withImem (s : State) (m : List (Nat × SlotHold)) : State := { s with imem := m }

/-- The outcome with another instruction memory in its next state. -/
def withImem (m : List (Nat × SlotHold)) : StepOutcome → StepOutcome
  | .next t => .next (t.withImem m)
  | .fault f => .fault f
  | .refused r => .refused r

theorem State.writeReg_withImem (s : State) (m : List (Nat × SlotHold)) (rd : Reg) (v : Word) :
    (s.withImem m).writeReg rd v = (s.writeReg rd v).withImem m := by
  unfold State.writeReg
  split <;> rfl

theorem State.storedByte_withImem (s : State) (m : List (Nat × SlotHold)) (a : Word) (be : BitVec 4) (v : Word)
    (i : Nat) : (s.withImem m).storedByte a be v i = (s.storedByte a be v i).withImem m := by
  unfold State.storedByte
  split <;> rfl

theorem State.memWrite_withImem (s : State) (m : List (Nat × SlotHold)) (a : Word) (n : AccessSize) (v : Word) :
    (s.withImem m).memWrite a n v = (s.memWrite a n v).withImem m := by
  simp only [State.memWrite, State.dmemStore, State.storedByte_withImem]

theorem Effect.apply_withImem (e : Effect) (s : State) (m : List (Nat × SlotHold)) :
    e.apply (s.withImem m) = Machine.withImem m (e.apply s) := by
  cases e with
  | commit rd v next => rw [Effect.apply, State.commit, State.writeReg_withImem]; rfl
  | goTo next => rfl
  | store a n v next => rw [Effect.apply, State.memWrite_withImem]; rfl
  | fail f => rfl

theorem agreesOn_withImem (sources : List Reg) (s : State) (m : List (Nat × SlotHold)) :
    AgreesOn sources (s.withImem m) s :=
  ⟨rfl, fun _ => rfl, rfl, fun _ _ => rfl⟩

/-- The effect does not depend on the instruction memory, and to apply it leaves the instruction memory alone. -/
theorem exec_withImem (i : Instr) (s : State) (m : List (Nat × SlotHold)) :
    exec i (s.withImem m) = withImem m (exec i s) := by
  obtain ⟨effect, heffect⟩ := exists_hasEffect i
  rw [heffect.exec_eq, heffect.exec_eq, heffect.congr _ s (agreesOn_withImem _ s m), Effect.apply_withImem]

/-- Settles O12: the outcome is that of `exec_withImem`. -/
theorem instructionsCannotSeeInstructionMemory : Obligations.InstructionsCannotSeeInstructionMemory := by
  intro i s m
  refine (exec_withImem i s m).trans ?_
  cases exec i s <;> rfl

/-! ### The same slot contents -/

/-- Two machines with the same contents differ in the instruction memory only. -/
theorem eq_withImem_of_sameContents {s t : State} (h : SameContents s t) : t = s.withImem t.imem := by
  obtain ⟨hpc, hregs, hdmem, hlabels, -⟩ := h
  rw [State.withImem, hpc, hregs, hdmem, hlabels]

theorem fetch_eq_of_sameContents {s t : State} (h : SameContents s t) : s.fetch = t.fetch := by
  obtain ⟨hpc, -, -, -, hslot⟩ := h
  rw [State.fetch, State.fetchAt, hpc, hslot]
  rfl

theorem State.slot_congr {s t : State} (h : s.imem = t.imem) (k : Nat) : s.slot k = t.slot k := by
  rw [State.slot, State.slotHold_congr h, State.slot]

/-- The next states of one instruction have the slot contents of the states before it. -/
theorem outcomesAgree_exec {s t : State} (h : SameContents s t) (i : Instr) : OutcomesAgree (exec i s) (exec i t) := by
  rw [eq_withImem_of_sameContents h, exec_withImem]
  cases hexec : exec i s with
  | next u =>
    obtain ⟨-, -, -, -, hslot⟩ := h
    have himem : u.imem = s.imem := (exec_keeps_imem_and_labels hexec).1
    exact ⟨rfl, rfl, rfl, rfl, fun k => (State.slot_congr himem k).trans (hslot k)⟩
  | fault f => rfl
  | refused r => rfl

/-- Settles O14: machines with the same contents fetch the same slot, and its record has agreeing outcomes in them. -/
theorem wordsAndRecordsStepAlike : Obligations.WordsAndRecordsStepAlike := by
  intro s t h
  have hfetch := fetch_eq_of_sameContents h
  unfold step
  rw [← hfetch]
  cases s.fetch with
  | instr i => exact outcomesAgree_exec h i
  | empty => rfl

end Sys2Proof.Machine
end

section
/-! SUPPORT. Fetch (20_memory.md R52, R53) and the steps it decides (60_exceptions.md R231, R236), and the settlement of
O3, O4 and O17. -/

namespace Sys2Proof.Machine

/-- R52, R53: the slot a step fetches, with the translation of the pc written out. -/
theorem State.fetch_eq (s : State) : s.fetch = s.slot (s.pc.toNat % imemBytes / 4) := by
  rw [State.fetch, State.fetchAt, iTrans_eq]

theorem step_of_fetch_instr {s : State} {i : Instr} (h : s.fetch = .instr i) : step s = exec i s := by
  rw [step, h]

theorem step_of_fetch_empty {s : State} (h : s.fetch = .empty) : step s = .fault .invalidOpcode := by
  rw [step, h]
  rfl

/-- R94, R104: what a word decodes to is encodable. -/
theorem wellFormed_of_decode {w : Word} {i : Instr} (h : decode w = .ok i) : i.wellFormed = true :=
  (encode_eq_some_iff.1 (encode_of_decode h)).1

/-- A slot held as a word contains a record only where the word decodes to it (R103). -/
theorem decode_of_slot_instr {s : State} {k : Nat} {w : Word} {i : Instr} (hw : s.slotHold k = .word w)
    (h : s.slot k = .instr i) : decode w = .ok i := by
  rw [State.slot, hw, SlotHold.content, decodeSlot] at h
  split at h
  case h_1 j hj => rw [hj, Slot.instr.inj h]
  case h_2 => nomatch h

/-- Settles O3: the slot's content is the record, held as one or as a word that decodes to it. -/
theorem stepRunsTheFetchedInstruction : Obligations.StepRunsTheFetchedInstruction := by
  intro s i
  refine ⟨fun hrecord => ?_, fun w hword hdecode => ⟨wellFormed_of_decode hdecode, ?_⟩⟩
  · refine step_of_fetch_instr ?_
    rw [State.fetch_eq, State.slot, hrecord, SlotHold.content]
  · refine step_of_fetch_instr ?_
    rw [State.fetch_eq, State.slot, hword, SlotHold.content, decodeSlot_of_decode hdecode]

/-- Settles O4: a fetched record completes or raises UnknownLabel, so only an empty slot raises InvalidOpcode. -/
theorem emptySlotRaisesInvalidOpcode : Obligations.EmptySlotRaisesInvalidOpcode := by
  intro s
  rw [← State.fetch_eq]
  refine ⟨fun h => ?_, step_of_fetch_empty⟩
  rcases step_cases s with ⟨i, -, hstep⟩ | ⟨hempty, -⟩
  · rcases exec_next_or_unknownLabel i s with ⟨t, hexec⟩ | ⟨name, hexec⟩
    · nomatch h.symm.trans (hstep.trans hexec)
    · nomatch h.symm.trans (hstep.trans hexec)
  · exact hempty

/-- Settles O17: fetch reads its address through `iTrans` only. -/
theorem instructionAddressesSelectSlots : Obligations.InstructionAddressesSelectSlots := by
  intro s a b
  refine ⟨iTrans_eq a, iTrans_lt a, fun h => ?_⟩
  rw [← iTrans_eq, ← iTrans_eq] at h
  rw [State.fetchAt, h, State.fetchAt]

end Sys2Proof.Machine
end

section
/-! SUPPORT. Jumps and targets (41_jumps.md, 42_branches.md): where an instruction that names a target goes, which
targets an instruction word can name, and the settlement of O27, O31, O15, O6 and O13. -/

namespace Sys2Proof.Machine

/-! ### JAL and the branches -/

theorem exec_jal_of_resolve_ok {rd : Reg} {target : JumpTarget} {s : State} {a : Word}
    (h : s.resolve target = .ok a) : exec (.jal rd target) s = s.commit rd s.nextPc a := by
  rw [exec, execJal, h]

theorem exec_jal_of_resolve_error {rd : Reg} {target : JumpTarget} {s : State} {f : Fault}
    (h : s.resolve target = .error f) : exec (.jal rd target) s = .fault f := by
  rw [exec, execJal, h]
  rfl

/-- R92: an instruction that names a target is JAL or a branch, whose condition says when it is taken. -/
theorem target_cases {i : Instr} {target : JumpTarget} (h : i.target? = some target) :
    (∃ rd, i = .jal rd target) ∨ ∃ cond rs1 rs2, ∀ s, exec i s = branch cond rs1 rs2 target s ∧
      (conditionHolds cond (s.readReg rs1) (s.readReg rs2) = true ↔ i.takesTarget s) := by
  cases i with
  | jal rd target' => exact .inl ⟨rd, congrArg _ (Option.some.inj h)⟩
  | beq rs1 rs2 =>
    exact .inr ⟨.eq, rs1, rs2, fun s => ⟨Option.some.inj h ▸ exec_beq _ _ _ s, conditionHolds_eq_iff _ _⟩⟩
  | bne rs1 rs2 =>
    exact .inr ⟨.ne, rs1, rs2, fun s => ⟨Option.some.inj h ▸ exec_bne _ _ _ s, conditionHolds_ne_iff _ _⟩⟩
  | blt rs1 rs2 =>
    exact .inr ⟨.lt, rs1, rs2, fun s => ⟨Option.some.inj h ▸ exec_blt _ _ _ s, conditionHolds_lt_iff _ _⟩⟩
  | bge rs1 rs2 =>
    exact .inr ⟨.ge, rs1, rs2, fun s => ⟨Option.some.inj h ▸ exec_bge _ _ _ s, conditionHolds_ge_iff _ _⟩⟩
  | bltu rs1 rs2 =>
    exact .inr ⟨.ltu, rs1, rs2, fun s => ⟨Option.some.inj h ▸ exec_bltu _ _ _ s, conditionHolds_ltu_iff _ _⟩⟩
  | bgeu rs1 rs2 =>
    exact .inr ⟨.geu, rs1, rs2, fun s => ⟨Option.some.inj h ▸ exec_bgeu _ _ _ s, conditionHolds_geu_iff _ _⟩⟩
  | _ => nomatch h

/-- R150: a transfer that is not taken is a branch's, and it goes on to the next instruction. -/
theorem exec_of_not_takesTarget {i : Instr} {target : JumpTarget} {s : State} (h : i.target? = some target)
    (huntaken : ¬ i.takesTarget s) : exec i s = .next (s.setPc s.nextPc) := by
  rcases target_cases h with ⟨rd, rfl⟩ | ⟨cond, rs1, rs2, hbranch⟩
  · exact absurd trivial huntaken
  · obtain ⟨hexec, htaken⟩ := hbranch s
    exact hexec.trans (branch_of_not_taken (mt htaken.1 huntaken))

/-- R140, R150: a transfer that is taken goes where its target resolves to. -/
theorem exec_of_takesTarget_of_resolve_ok {i : Instr} {target : JumpTarget} {s : State} {a : Word}
    (h : i.target? = some target) (htakes : i.takesTarget s) (hres : s.resolve target = .ok a) :
    ∃ t, exec i s = .next t ∧ t.pc = a := by
  rcases target_cases h with ⟨rd, rfl⟩ | ⟨cond, rs1, rs2, hbranch⟩
  · exact ⟨_, exec_jal_of_resolve_ok hres, rfl⟩
  · obtain ⟨hexec, htaken⟩ := hbranch s
    exact ⟨_, hexec.trans (branch_of_taken_of_resolve_ok (htaken.2 htakes) hres), rfl⟩

/-- R140, R150, D36: a transfer that is taken raises the error of its target's resolution. -/
theorem exec_of_takesTarget_of_resolve_error {i : Instr} {target : JumpTarget} {s : State} {f : Fault}
    (h : i.target? = some target) (htakes : i.takesTarget s) (hres : s.resolve target = .error f) :
    exec i s = .fault f := by
  rcases target_cases h with ⟨rd, rfl⟩ | ⟨cond, rs1, rs2, hbranch⟩
  · exact exec_jal_of_resolve_error hres
  · obtain ⟨hexec, htaken⟩ := hbranch s
    exact hexec.trans (branch_of_taken_of_resolve_error (htaken.2 htakes) hres)

/-- The pc of a transfer that completes: the resolved target where it is taken, else the next instruction's address. -/
theorem exec_pc_of_target {i : Instr} {target : JumpTarget} {s t : State} (h : i.target? = some target)
    (hexec : exec i s = .next t) : s.resolve target = .ok t.pc ∨ t.pc = s.nextPc := by
  by_cases htakes : i.takesTarget s
  · left
    cases hres : s.resolve target with
    | ok a =>
      obtain ⟨u, hu, rfl⟩ := exec_of_takesTarget_of_resolve_ok h htakes hres
      cases hexec.symm.trans hu
      rfl
    | error f => nomatch hexec.symm.trans (exec_of_takesTarget_of_resolve_error h htakes hres)
  · right
    cases hexec.symm.trans (exec_of_not_takesTarget h htakes)
    rfl

/-- The pc of an instruction that names no target: JALR clears bit 0 of its sum (R141), the others advance by 4. -/
theorem exec_pc_of_no_target {i : Instr} {s t : State} (h : i.target? = none) (hexec : exec i s = .next t) :
    (∃ a, t.pc = a &&& 0xFFFFFFFE#32) ∨ t.pc = s.nextPc := by
  cases i with
  | jal | beq | bne | blt | bge | bltu | bgeu => nomatch h
  | jalr => cases hexec; exact .inl ⟨_, rfl⟩
  | _ => cases hexec; exact .inr rfl

/-! ### Targets -/

/-- Settles O27: the table's address or the error of its absence, and the wrapping sum with the pc. -/
theorem targetsResolveByTableOrByOffset : Obligations.TargetsResolveByTableOrByOffset := by
  intro s name a off
  exact ⟨State.resolve_label_bound, State.resolve_label_unbound, _, State.resolve_offset s off, BitVec.toNat_add _ _⟩

/-- Settles O31: only the pc changes, to the next instruction's address. -/
theorem untakenBranchesIgnoreUnboundLabels : Obligations.UntakenBranchesIgnoreUnboundLabels := by
  intro i target s htarget huntaken
  exact ⟨_, exec_of_not_takesTarget htarget huntaken, writesPc_setPc s s.nextPc⟩

theorem exec_jal_congr_target {s : State} {target target' : JumpTarget} (h : s.resolve target = s.resolve target')
    (rd : Reg) : exec (.jal rd target) s = exec (.jal rd target') s := by
  simp only [exec, execJal, h]

theorem branch_congr_target {s : State} {target target' : JumpTarget} (h : s.resolve target = s.resolve target')
    (cond : BranchCondition) (rs1 rs2 : Reg) : branch cond rs1 rs2 target s = branch cond rs1 rs2 target' s := by
  simp only [branch, h]

/-- The offset of a placed label, taken at another pc, misses the label by the difference of the two. -/
theorem State.resolve_offset_of_pc {s : State} {a d : Word} (T : Word) (hpc : s.pc = a + d) :
    s.resolve (.offset (T - a)) = .ok (T + d) := by
  rw [State.resolve_offset, hpc]
  congr 1
  bv_omega

/-- Settles O15: at the placed address the two forms resolve alike, and an instruction reads its target only to resolve
it. -/
theorem labelAndOffsetFormsAgreeAtThePlacedAddress : Obligations.LabelAndOffsetFormsAgreeAtThePlacedAddress := by
  intro s name T a d rd rs1 rs2 hbound
  refine ⟨fun hpc => ?_, fun hpc => ⟨State.resolve_label_bound hbound, State.resolve_offset_of_pc T hpc⟩⟩
  have hres : s.resolve (.label name) = s.resolve (.offset (T - a)) := by
    rw [State.resolve_label_bound hbound, State.resolve_offset_of_pc (d := 0#32) T (by rw [hpc, BitVec.add_zero]),
      BitVec.add_zero]
  have hbranch := fun cond => branch_congr_target hres cond rs1 rs2
  exact ⟨exec_jal_congr_target hres rd, hbranch .eq, hbranch .ne, hbranch .lt, hbranch .ge, hbranch .ltu, hbranch .geu⟩

/-- R103: an instruction word has no Label-form target, and its offset is even. -/
theorem even_offset_of_wellFormed {i : Instr} {target : JumpTarget} (hwf : i.wellFormed = true)
    (h : i.target? = some target) : ∃ off, target = .offset off ∧ off.toNat % 2 = 0 := by
  have hfits : ∃ n, targetFits n target = true := by
    cases i with
    | jal => exact ⟨21, Option.some.inj h ▸ hwf⟩
    | beq | bne | blt | bge | bltu | bgeu => exact ⟨13, Option.some.inj h ▸ hwf⟩
    | _ => nomatch h
  obtain ⟨n, hfits⟩ := hfits
  obtain ⟨off, htarget, heven, -⟩ := (targetFits_iff n target).1 hfits
  exact ⟨off, htarget, (even_iff_extractLsb'_zero off).2 heven⟩

/-! ### UnknownLabel -/

/-- R235: an instruction raises UnknownLabel exactly where it takes an unbound label as its target. -/
theorem exec_eq_unknownLabel_iff (i : Instr) (s : State) (name : LabelName) :
    exec i s = .fault (.unknownLabel name) ↔
      i.target? = some (.label name) ∧ i.takesTarget s ∧ s.labelAddress name = none := by
  constructor
  · intro hexec
    rcases exec_cases i s with ⟨_, _, _, -, -, h⟩ | ⟨_, -, -, h⟩ | ⟨_, _, _, -, -, h⟩ | ⟨name', htarget, hunbound, h⟩
    · nomatch h.symm.trans hexec
    · nomatch h.symm.trans hexec
    · nomatch h.symm.trans hexec
    · cases h.symm.trans hexec
      refine ⟨htarget, by_contra fun huntaken => ?_, hunbound⟩
      nomatch (exec_of_not_takesTarget htarget huntaken).symm.trans hexec
  · rintro ⟨htarget, htakes, hunbound⟩
    exact exec_of_takesTarget_of_resolve_error htarget htakes (State.resolve_label_unbound hunbound)

theorem step_eq_unknownLabel_iff (s : State) (name : LabelName) : step s = .fault (.unknownLabel name) ↔
    ∃ i, s.fetch = .instr i ∧ i.target? = some (.label name) ∧ i.takesTarget s ∧ s.labelAddress name = none := by
  simp only [← exec_eq_unknownLabel_iff]
  constructor
  · intro h
    rcases step_cases s with ⟨i, hfetch, hstep⟩ | ⟨-, hstep⟩
    · exact ⟨i, hfetch, hstep.symm.trans h⟩
    · nomatch hstep.symm.trans h
  · rintro ⟨i, hfetch, hexec⟩
    exact (step_of_fetch_instr hfetch).trans hexec

/-- A word that is fetched raises no UnknownLabel: what it decodes to names no label. -/
theorem step_ne_unknownLabel_of_word {s : State} {w : Word} (hw : s.slotHold (s.pc.toNat % imemBytes / 4) = .word w)
    (name : LabelName) : step s ≠ .fault (.unknownLabel name) := by
  intro h
  obtain ⟨i, hfetch, htarget, -, -⟩ := (step_eq_unknownLabel_iff s name).1 h
  rw [State.fetch_eq] at hfetch
  obtain ⟨off, hoff, -⟩ := even_offset_of_wellFormed (wellFormed_of_decode (decode_of_slot_instr hw hfetch)) htarget
  nomatch hoff

/-- R266: a name that the loaded lines declare is bound: its own line binds it, and no later line unbinds a name. -/
theorem labelAddress_loadLines_of_mem {p : Program} {addr : Nat} {s t : State} {name : LabelName}
    (hname : ProgramLine.label name ∈ p) (h : loadLines p addr s = .ok t) : t.labelAddress name ≠ none := by
  induction p generalizing addr s with
  | nil => nomatch hname
  | cons line p ih =>
    cases line with
    | instruction i =>
      exact ih ((List.mem_cons.1 hname).resolve_left nofun) (loadLines_instruction_ok h).2
    | label name' =>
      by_cases hmem : ProgramLine.label name ∈ p
      · exact ih hmem h
      · cases (List.mem_cons.1 hname).resolve_right hmem
        rw [labelAddress_loadLines_of_not_mem hmem ((loadLines_label _ _ _ _).symm.trans h),
          State.labelAddress_bindLabel, if_pos rfl]
        nofun

/-- Settles O6: the step's error is the fetched record's, no word names a label, and a declared name is bound. -/
theorem unknownLabelOnlyFromTakenUnboundLabels : Obligations.UnknownLabelOnlyFromTakenUnboundLabels :=
  ⟨step_eq_unknownLabel_iff, fun _ _ name hw => step_ne_unknownLabel_of_word hw name,
    fun _ _ _ hload hname => labelAddress_loadLines_of_mem hname hload⟩

/-! ### The pc of a machine loaded from words -/

/-- The mask of R141 takes bit 0 off. -/
theorem toNat_and_clearBit0 (v : Word) : (v &&& 0xFFFFFFFE#32).toNat = v.toNat / 2 * 2 := by
  have hshift : v &&& 0xFFFFFFFE#32 = v >>> 1 <<< 1 :=
    (BitVec.shiftLeft_ushiftRight (x := v) (n := 1)).symm
  rw [hshift, BitVec.toNat_shiftLeft, BitVec.toNat_ushiftRight, Nat.shiftRight_eq_div_pow, Nat.shiftLeft_eq]
  omega

theorem even_nextPc {s : State} (h : s.pc.toNat % 2 = 0) : s.nextPc.toNat % 2 = 0 := by
  rw [State.nextPc, BitVec.toNat_add, BitVec.toNat_ofNat]
  omega

/-- An encodable record takes an even pc to an even pc: by 4, by an even offset, or with bit 0 cleared. -/
theorem even_pc_of_exec {i : Instr} {s t : State} (hwf : i.wellFormed = true) (hpc : s.pc.toNat % 2 = 0)
    (hexec : exec i s = .next t) : t.pc.toNat % 2 = 0 := by
  cases htarget : i.target? with
  | none =>
    rcases exec_pc_of_no_target htarget hexec with ⟨a, ht⟩ | ht
    · rw [ht, toNat_and_clearBit0]
      exact Nat.mul_mod_left _ 2
    · exact ht ▸ even_nextPc hpc
  | some target =>
    obtain ⟨off, rfl, hoff⟩ := even_offset_of_wellFormed hwf htarget
    rcases exec_pc_of_target htarget hexec with hres | ht
    · rw [← Except.ok.inj hres, BitVec.toNat_add]
      omega
    · exact ht ▸ even_nextPc hpc

/-- Settles O13: a step keeps the slots, and the record it executes, decoded from a word, is encodable. -/
theorem wordLevelPcStaysEven : Obligations.WordLevelPcStaysEven := by
  intro s t hwords hpc h
  obtain ⟨i, hfetch, hexec⟩ := exec_of_step_next h
  obtain ⟨himem, -⟩ := exec_keeps_imem_and_labels hexec
  obtain ⟨w, hw⟩ := hwords (iTrans s.pc)
  refine ⟨fun k => ?_, even_pc_of_exec (wellFormed_of_decode (decode_of_slot_instr hw hfetch)) hpc hexec⟩
  rw [State.slotHold_congr himem]
  exact hwords k

end Sys2Proof.Machine
end

section
/-! SUPPORT. AUIPC (40_upper_immediate.md R131), JAL and JALR (41_jumps.md R140, R141) and SLTIU
(45_integer_immediate.md R183): what each writes, and the settlement of O24, O25, O26 and O40. -/

namespace Sys2Proof.Machine

theorem exec_auipc (rd : Reg) (imm : Word) (s : State) :
    exec (.auipc rd imm) s = s.commit rd (s.pc + upperImmediate imm) s.nextPc := rfl

/-- Settles O24: AUIPC's words decode by its row, and the value is the wrapping sum with `toNat_upperImmediate`'s. -/
theorem auipcAddsTheShiftedImmediateToThePc : Obligations.AuipcAddsTheShiftedImmediateToThePc := by
  refine ⟨wordsDecodeTo_row (.auipc 0#5 0#32), fun rd imm s => ?_⟩
  refine computes_of_exec_eq_commit (exec_auipc rd imm s) ?_
  rw [BitVec.toNat_add, toNat_upperImmediate]

/-- R140: a JAL whose target resolves writes the link and the pc, and nothing else. -/
theorem writesRegister_exec_jal {rd : Reg} {target : JumpTarget} {s : State} {a : Word}
    (h : s.resolve target = .ok a) :
    ∃ t, exec (.jal rd target) s = .next t ∧ WritesRegister s t rd (s.pc + 4#32) a :=
  ⟨_, exec_jal_of_resolve_ok h, writesRegister_commit s rd s.nextPc a⟩

theorem exec_jal_of_unbound {rd : Reg} {name : LabelName} {s : State} (h : s.labelAddress name = none) :
    exec (.jal rd (.label name)) s = .fault (.unknownLabel name) :=
  exec_jal_of_resolve_error (State.resolve_label_unbound h)

/-- Settles O25: JAL's words decode by its row; both target forms resolve, or the step errs and ends the run. -/
theorem jalLinksAndJumps : Obligations.JalLinksAndJumps := by
  refine ⟨wordsDecodeTo_row (.jal 0#5 (.offset 0#32)), fun rd s => ⟨?offset, ?bound, ?unbound, ?run⟩⟩
  case offset => exact fun off => writesRegister_exec_jal (State.resolve_offset s off)
  case bound => exact fun name a h => writesRegister_exec_jal (State.resolve_label_bound h)
  case unbound => exact fun name h => exec_jal_of_unbound h
  case run =>
    exact fun name h hfetch => run_succ_of_step_fault ((step_of_fetch_instr hfetch).trans (exec_jal_of_unbound h)) 0

theorem exec_jalr (rd base : Reg) (offset : Word) (s : State) : exec (.jalr rd base offset) s =
    s.commit rd s.nextPc ((s.readReg base + offset) &&& 0xFFFFFFFE#32) := rfl

/-- Settles O26: JALR's words decode by its row, and the committed pc is the old base's sum with bit 0 cleared. -/
theorem jalrLinksAndJumpsToTheEvenSum : Obligations.JalrLinksAndJumpsToTheEvenSum := by
  refine ⟨wordsDecodeTo_row (.jalr 0#5 0#5 0#32), fun rd base offset s => ?_⟩
  refine ⟨_, _, exec_jalr rd base offset s, ?_, writesRegister_commit s rd _ _⟩
  rw [toNat_and_clearBit0, BitVec.toNat_add]

theorem exec_sltiu (rd rs1 : Reg) (imm : Word) (s : State) :
    exec (.sltiu rd rs1 imm) s = integerImmediate .sltu rd rs1 imm s := rfl

/-- Settles O40: the words decode by SLTIU's row, and the value is `toNat_oneIf_lessUnsigned`'s. -/
theorem sltiuComparesUnsigned : Obligations.SltiuComparesUnsigned := by
  refine ⟨wordsDecodeTo_row (.sltiu 0#5 0#5 0#32), fun rd rs1 imm s => ?_⟩
  exact computes_of_exec_eq_integerImmediate (exec_sltiu rd rs1 imm s) (toNat_oneIf_lessUnsigned _ _)

end Sys2Proof.Machine
end

section
/-! SUPPORT. The data port (20_memory.md R58 to R65): a read of `n` bytes as a number, reads after writes, the
extension of a half, and the settlement of O18 to O22, O33, O34, O36 and O37. -/

namespace Sys2Proof.Machine

/-- Settles O18: the byte is the window byte, as the load takes it. -/
theorem byteEnabledLoadZeroesDisabledBytes : Obligations.ByteEnabledLoadZeroesDisabledBytes := by
  intro s a be i hi
  rw [State.extractLsb'_dmemLoad s a be hi, State.loadedByte, windowIndex_eq]

/-- Settles O19: an enabled window byte takes its byte of the value, and nothing else is written. -/
theorem byteEnabledStoreWritesEnabledBytes : Obligations.ByteEnabledStoreWritesEnabledBytes := by
  intro s a be v
  simp only [← windowIndex_eq]
  exact ⟨fun i hi hbe => s.dmemByte_dmemStore_self a be v hi hbe, fun k hk => s.dmemByte_dmemStore_ne a be v k hk,
    s.dmemStore_pc v a be, State.readReg_congr (s.dmemStore_regs v a be), s.dmemStore_imem v a be,
    s.dmemStore_labels v a be⟩

/-! ### A read as a number -/

/-- A field is the quotient of the word's value by the weight of its lowest bit, modulo the field's size. -/
theorem toNat_field (w : Word) (start len : Nat) :
    (w.extractLsb' start len).toNat = w.toNat / 2 ^ start % 2 ^ len := by
  rw [BitVec.extractLsb'_toNat, Nat.shiftRight_eq_div_pow]

/-- R58: where the `n` bytes at an address are those of a value, their little-endian value is the value modulo
2^(8n). -/
theorem littleEndian_eq_mod {s : State} {a v : Word} {n : Nat}
    (h : ∀ i, i < n → s.dmemByte (accessedIndex a i) = v.extractLsb' (8 * i) 8) :
    littleEndian s a n = v.toNat % 2 ^ (8 * n) := by
  induction n with
  | zero => rw [littleEndian, Nat.mul_zero, Nat.pow_zero, Nat.mod_one]
  | succ n ih =>
    have hbyte := toNat_field v (8 * n) 8
    rw [← h n n.lt_succ_self] at hbyte
    rw [littleEndian, ih fun i hi => h i (Nat.lt_succ_of_lt hi), hbyte, Nat.mul_succ, Nat.pow_add, Nat.mod_mul,
      Nat.mul_comm (2 ^ (8 * n))]

/-- R60, R62: the bytes that are not enabled are 0, so a read of `n` bytes lies below 2^(8n). -/
theorem State.toNat_memRead_lt (s : State) (a : Word) (n : AccessSize) :
    (s.memRead a n).toNat < 2 ^ (8 * n.bytes) := by
  refine Nat.lt_pow_two_of_testBit _ fun i hi => ?_
  rw [BitVec.testBit_toNat]
  by_cases hi32 : i < 32
  · have hbyte : (s.memRead a n).extractLsb' (8 * (i / 8)) 8 = 0#8 := by
      have hdisabled : n.enables.getLsbD (i / 8) = false := by
        rw [n.enables_getLsbD _ (by omega), decide_eq_false (by omega)]
      rw [State.memRead, State.extractLsb'_dmemLoad s a _ (by omega), State.loadedByte, hdisabled]
      rfl
    have hbit := congrArg (fun b => b.getLsbD (i % 8)) hbyte
    rw [BitVec.getLsbD_extractLsb', Nat.div_add_mod, BitVec.getLsbD_zero, decide_eq_true (Nat.mod_lt i (by decide)),
      Bool.true_and] at hbit
    exact hbit
  · exact BitVec.getLsbD_of_ge _ _ (Nat.le_of_not_lt hi32)

/-- The little-endian value of the first `k` of the bytes that a read takes. -/
theorem State.toNat_memRead_mod (s : State) (a : Word) (n : AccessSize) {k : Nat} (hk : k ≤ n.bytes) :
    (s.memRead a n).toNat % 2 ^ (8 * k) = littleEndian s a k :=
  (littleEndian_eq_mod fun _ hi => (s.extractLsb'_memRead a n (hi.trans_le hk)).symm).symm

/-- R62: `MemRead(a, n)` is the little-endian value of its `n` bytes. -/
theorem State.toNat_memRead (s : State) (a : Word) (n : AccessSize) :
    (s.memRead a n).toNat = littleEndian s a n.bytes := by
  rw [← s.toNat_memRead_mod a n (Nat.le_refl _), Nat.mod_eq_of_lt (s.toNat_memRead_lt a n)]

/-- Settles O20: it is `State.toNat_memRead`. -/
theorem memReadIsLittleEndian : Obligations.MemReadIsLittleEndian := State.toNat_memRead

/-! ### Reads after writes -/

/-- The read byte is one that the write wrote. -/
theorem State.extractLsb'_memRead_memWrite_of_eq (s : State) {a b : Word} (v : Word) {m n : AccessSize} {j k : Nat}
    (hj : j < m.bytes) (hk : k < n.bytes) (h : accessedIndex b k = accessedIndex a j) :
    ((s.memWrite a m v).memRead b n).extractLsb' (8 * k) 8 = v.extractLsb' (8 * j) 8 := by
  rw [State.extractLsb'_memRead _ b n hk, h, ← windowIndex_eq, State.dmemByte_memWrite_self s a m v hj]

/-- The read byte is none that the write wrote. -/
theorem State.extractLsb'_memRead_memWrite_of_ne (s : State) {a b : Word} (v : Word) {m n : AccessSize} {k : Nat}
    (hk : k < n.bytes) (h : ∀ j, j < m.bytes → accessedIndex b k ≠ accessedIndex a j) :
    ((s.memWrite a m v).memRead b n).extractLsb' (8 * k) 8 = s.dmemByte (accessedIndex b k) := by
  rw [State.extractLsb'_memRead _ b n hk, State.dmemByte_memWrite_ne s a m v _ fun j hj => windowIndex_eq a j ▸ h j hj]

theorem accessedIndex_inj {a : Word} {i j : Nat} (hi : i < 4) (hj : j < 4)
    (h : accessedIndex a i = accessedIndex a j) : i = j := by
  rw [← windowIndex_eq, ← windowIndex_eq] at h
  exact windowIndex_inj hi hj h

/-- The `i`-th byte of a window is the first of the window at the address `i` further on, across every wrap. -/
theorem accessedIndex_add (a : Word) (i : Nat) :
    accessedIndex (a + BitVec.ofNat 32 i) 0 = accessedIndex a i := by
  rw [accessedIndex, accessedIndex, BitVec.toNat_add, BitVec.toNat_ofNat, dmemBytes_eq]
  omega

/-- A write and a read of the same bytes return the low bytes of the value. -/
theorem State.toNat_memRead_memWrite_same (s : State) (a v : Word) (n : AccessSize) :
    ((s.memWrite a n v).memRead a n).toNat = v.toNat % 2 ^ (8 * n.bytes) := by
  rw [State.toNat_memRead]
  exact littleEndian_eq_mod fun i hi => windowIndex_eq a i ▸ State.dmemByte_memWrite_self s a n v hi

/-- Settles O21: each clause is one of the lemmas above, for the byte it reads. -/
theorem storeThenLoadReturnsTheStoredBytes : Obligations.StoreThenLoadReturnsTheStoredBytes := by
  intro s a b v m n
  refine ⟨fun j k hj hk h => s.extractLsb'_memRead_memWrite_of_eq v hj hk h,
    fun k hk h => s.extractLsb'_memRead_memWrite_of_ne v hk h, fun k hk => ?same, State.toNat_memRead_lt _ b n,
    s.toNat_memRead_memWrite_same a v n, fun i hi => ?bytes⟩
  case same =>
    split
    case isTrue hkm => exact s.extractLsb'_memRead_memWrite_of_eq v hkm hk rfl
    case isFalse hkm =>
      refine s.extractLsb'_memRead_memWrite_of_ne v hk fun j hj h => hkm ?_
      rwa [accessedIndex_inj (hk.trans_le n.bytes_le) (hj.trans_le m.bytes_le) h]
  case bytes =>
    rw [State.toNat_memRead, AccessSize.bytes, littleEndian_one, accessedIndex_add a i, ← windowIndex_eq,
      State.dmemByte_memWrite_self s a .four v hi]
    exact toNat_field v (8 * i) 8

/-! ### The extension of a load (R65) -/

theorem toInt_loadExtend_half (raw : Word) :
    (loadExtend .half raw).toInt = signedValue 16 (raw.extractLsb' 0 16).toNat := by
  rw [loadExtend, BitVec.toInt_signExtend_of_le (by decide), toInt_eq_signedValue (by decide)]

theorem toNat_loadExtend_halfUnsigned (raw : Word) :
    (loadExtend .halfUnsigned raw).toNat = (raw.extractLsb' 0 16).toNat := by
  rw [loadExtend, BitVec.toNat_setWidth_of_le (by decide)]

/-- Settles O22: the low bits of a value are its remainder. -/
theorem loadExtendByWidth : Obligations.LoadExtendByWidth := by
  intro raw
  exact ⟨toInt_loadExtend_byte raw, toInt_loadExtend_half raw, rfl, toNat_loadExtend_byteUnsigned raw,
    toNat_loadExtend_halfUnsigned raw⟩

/-! ### The loads and stores of more than one byte -/

theorem exec_lh (rd : Reg) (address : Address) (s : State) :
    exec (.lh rd address) s = load .half rd address s := rfl

theorem exec_lhu (rd : Reg) (address : Address) (s : State) :
    exec (.lhu rd address) s = load .halfUnsigned rd address s := rfl

theorem exec_lw (rd : Reg) (address : Address) (s : State) :
    exec (.lw rd address) s = load .word rd address s := rfl

theorem exec_sh (rs : Reg) (address : Address) (s : State) :
    exec (.sh rs address) s = store .half rs address s := rfl

theorem exec_sw (rs : Reg) (address : Address) (s : State) :
    exec (.sw rs address) s = store .word rs address s := rfl

/-- Settles O33: the words decode by the rows of LH and LHU, and the half that each extends is the little-endian value
of the two bytes it reads. -/
theorem halfLoadsExtendTheHalf : Obligations.HalfLoadsExtendTheHalf := by
  refine ⟨wordsDecodeTo_row (.lh 0#5 ⟨0#5, 0#32⟩), wordsDecodeTo_row (.lhu 0#5 ⟨0#5, 0#32⟩), fun rd address s => ?_⟩
  have hhalf : ((s.memRead (addressOf s address) .two).extractLsb' 0 16).toNat =
      littleEndian s (addressOf s address) 2 :=
    s.toNat_memRead_mod (addressOf s address) .two (Nat.le_refl 2)
  constructor
  · refine computes_of_exec_eq_load (exec_lh rd address s) ?_
    rw [loadSize, toInt_loadExtend_half, hhalf]
  · refine computes_of_exec_eq_load (exec_lhu rd address s) ?_
    rw [loadSize, toNat_loadExtend_halfUnsigned, hhalf]

/-- Settles O34: the words decode by LW's row, and LW passes what it reads. -/
theorem wordLoadPassesTheFourBytes : Obligations.WordLoadPassesTheFourBytes := by
  refine ⟨wordsDecodeTo_row (.lw 0#5 ⟨0#5, 0#32⟩), fun rd address s => ?_⟩
  exact computes_of_exec_eq_load (exec_lw rd address s) (s.toNat_memRead (addressOf s address) .four)

/-- Settles O36: the words decode by SH's row, and SH is the `store` whose width is two bytes. -/
theorem halfStoreWritesTwoBytes : Obligations.HalfStoreWritesTwoBytes := by
  refine ⟨wordsDecodeTo_row (.sh 0#5 ⟨0#5, 0#32⟩), fun rs address s => ?_⟩
  exact storesBytes_of_exec_eq_store (exec_sh rs address s)

/-- Settles O37: the words decode by SW's row, and SW is the `store` whose width is four bytes. -/
theorem wordStoreWritesFourBytes : Obligations.WordStoreWritesFourBytes := by
  refine ⟨wordsDecodeTo_row (.sw 0#5 ⟨0#5, 0#32⟩), fun rs address s => ?_⟩
  exact storesBytes_of_exec_eq_store (exec_sw rs address s)

end Sys2Proof.Machine
end

section
/-! SUPPORT. The opcode table as the decoder's specification (30_encoding.md R103, R105 to R108): which row decides a
word, which words no row decides, and the settlement of O48, O50 and O51. -/

namespace Sys2Proof

/-- R106: two rows that match the same word are one row. -/
theorem row_unique {r q : OpcodeRow} (hr : r ∈ opcodeTable) (hq : q ∈ opcodeTable) {w : Word}
    (hrw : w &&& r.mask = r.pattern) (hqw : w &&& q.mask = q.pattern) : r = q := by
  have hfindr := find?_selects opcodeTable_conflicts hr (beq_iff_eq.2 hrw)
  have hfindq := find?_selects opcodeTable_conflicts hq (beq_iff_eq.2 hqw)
  exact Option.some.inj (hfindr.symm.trans hfindq)

/-- R103: a word that matches a row stands for that row's record. -/
theorem decodeSlot_of_row {r : OpcodeRow} (hr : r ∈ opcodeTable) {w : Word} (hw : w &&& r.mask = r.pattern) :
    decodeSlot w = .instr (r.build w) :=
  decodeSlot_of_decode (decode_of_row hr (beq_iff_eq.2 hw))

/-- R103: the Empty words are those that match no row. -/
theorem decodeSlot_eq_empty_iff (w : Word) :
    decodeSlot w = .empty ↔ ∀ r ∈ opcodeTable, w &&& r.mask ≠ r.pattern := by
  constructor
  · intro hempty r hr hw
    nomatch hempty.symm.trans (decodeSlot_of_row hr hw)
  · intro hnone
    cases hdecode : decode w with
    | error e => rw [decodeSlot, hdecode]
    | ok i =>
      obtain ⟨r, hr, hselects, -⟩ := row_of_decode hdecode
      exact absurd (eq_of_beq hselects) (hnone r hr)

/-- Settles O48: each clause is one of the three lemmas above. -/
theorem decoderFollowsTheOpcodeTable : Obligations.DecoderFollowsTheOpcodeTable := by
  refine ⟨fun r hr q hq w hrw hqw => ?_, fun r hr w hw => decodeSlot_of_row hr hw, decodeSlot_eq_empty_iff⟩
  rw [row_unique hr hq hrw hqw]

/-- R105, R107, R108: a word is no instruction when every row that could have its bits under `key` covers the bits of
`mask` with a pattern that the word does not have there. -/
theorem decodeSlot_eq_empty_of_rows {w key bits mask : Word} {P : Word → Prop} (hkey : w &&& key = bits)
    (hrows : ∀ r ∈ opcodeTable, bits &&& r.mask = r.pattern &&& key → mask &&& r.mask = mask ∧ P (r.pattern &&& mask))
    (hw : ¬ P (w &&& mask)) : decodeSlot w = .empty := by
  refine (decodeSlot_eq_empty_iff w).2 fun r hr hmatch => hw ?_
  have hagree : bits &&& r.mask = r.pattern &&& key := by
    rw [← hkey, ← hmatch, BitVec.and_assoc, BitVec.and_assoc, BitVec.and_comm key]
  obtain ⟨hcovers, hP⟩ := hrows r hr hagree
  rwa [← hmatch, BitVec.and_assoc, BitVec.and_comm r.mask, hcovers] at hP

/-- R108: what the R-format rows put in `w[31:25]` and `w[14:12]`: 0000000, or 0100000 with funct3 000 or 101. -/
abbrev isRegisterFunct (x : Word) : Prop :=
  x &&& 0xFE000000#32 = 0#32 ∨ (x &&& 0xFE000000#32 = 0x40000000#32 ∧ x &&& 0x7000#32 ∈ [0x0000#32, 0x5000#32])

/-- Settles O50: for each clause, the rows that have the word's opcode (or opcode and funct3) have other bits in the
field that the clause speaks of. -/
theorem wordsOutsideTheTableAreEmpty : Obligations.WordsOutsideTheTableAreEmpty := by
  intro w
  refine ⟨fun h => ?opcode, fun hop h => ?jalr, fun hop h => ?branch, fun hop h => ?load, fun hop h => ?store,
    fun hop h h' => ?op, fun hop h => ?slli, fun hop h => ?srli⟩
  case opcode => exact decodeSlot_eq_empty_of_rows (key := 0#32) (BitVec.and_zero) (by decide) h
  case jalr => exact decodeSlot_eq_empty_of_rows (P := (· = 0#32)) hop (by decide) h
  case branch => exact decodeSlot_eq_empty_of_rows (P := (· ∉ [0x2000#32, 0x3000#32])) hop (by decide) (not_not.2 h)
  case load =>
    exact decodeSlot_eq_empty_of_rows (P := (· ∉ [0x3000#32, 0x6000#32, 0x7000#32])) hop (by decide) (not_not.2 h)
  case store =>
    exact decodeSlot_eq_empty_of_rows (P := (· ∉ [0x3000#32, 0x4000#32, 0x5000#32, 0x6000#32, 0x7000#32])) hop
      (by decide) (not_not.2 h)
  case op =>
    refine decodeSlot_eq_empty_of_rows (mask := 0xFE007000#32) (P := isRegisterFunct) hop (by decide) ?_
    rw [isRegisterFunct, BitVec.and_assoc, BitVec.and_assoc]
    exact not_or.2 ⟨h, h'⟩
  case slli => exact decodeSlot_eq_empty_of_rows (P := (· = 0#32)) hop (by decide) h
  case srli => exact decodeSlot_eq_empty_of_rows hop (by decide) h

/-- Settles O51: the decoder evaluates on the nine words. -/
theorem sampleWordsDecode : Obligations.SampleWordsDecode := by
  unfold Obligations.SampleWordsDecode
  decide

end Sys2Proof
end

section
/-! SUPPORT. Fields and immediates as numbers (30_encoding.md R101, R102), and the settlement of O49. -/

namespace Sys2Proof

open Sys2Proof.Machine

/-- A field that reaches the top bit of the word is the quotient alone. -/
theorem toNat_field_top (w : Word) {start len : Nat} (h : start + len = 32) :
    (w.extractLsb' start len).toNat = w.toNat / 2 ^ start := by
  rw [toNat_field, Nat.mod_eq_of_lt]
  rw [Nat.div_lt_iff_lt_mul (Nat.two_pow_pos start), ← Nat.pow_add, Nat.add_comm, h]
  exact w.isLt

/-- Joined bit strings have the value of their digits. -/
theorem toNat_append_eq_add {m n : Nat} (x : BitVec m) (y : BitVec n) :
    (x ++ y).toNat = x.toNat * 2 ^ n + y.toNat := by
  rw [BitVec.toNat_append, ← Nat.shiftLeft_add_eq_or_of_lt y.isLt, Nat.shiftLeft_eq]

/-- R102: a sign-extended immediate is the signed reading of its bits. -/
theorem toInt_signExtend_eq_signedValue {n : Nat} (hpos : 0 < n) (hn : n ≤ 32) (x : BitVec n) :
    (x.signExtend 32).toInt = signedValue n x.toNat := by
  rw [BitVec.toInt_signExtend_of_le hn, toInt_eq_signedValue hpos]

theorem toNat_shamt (w : Word) : (shamt w).toNat = w.toNat / 2 ^ 20 % 32 := by
  rw [shamt, BitVec.toNat_setWidth_of_le (by decide)]
  exact toNat_field w 20 5

theorem toNat_immU (w : Word) : (immU w).toNat = w.toNat / 2 ^ 12 := by
  rw [immU, BitVec.toNat_setWidth_of_le (by decide), toNat_field_top w (by decide)]

theorem toInt_immI (w : Word) : (immI w).toInt = signedValue 12 (w.toNat / 2 ^ 20) := by
  rw [immI, toInt_signExtend_eq_signedValue (by decide) (by decide), toNat_field_top w (by decide)]

theorem toInt_immS (w : Word) :
    (immS w).toInt = signedValue 12 (w.toNat / 2 ^ 25 * 2 ^ 5 + w.toNat / 2 ^ 7 % 2 ^ 5) := by
  rw [immS, toInt_signExtend_eq_signedValue (by decide) (by decide), toNat_append_eq_add,
    toNat_field_top w (by decide), toNat_field]

theorem toInt_immB (w : Word) : (immB w).toInt =
    signedValue 13 (w.toNat / 2 ^ 31 * 2 ^ 12 + w.toNat / 2 ^ 7 % 2 * 2 ^ 11 + w.toNat / 2 ^ 25 % 2 ^ 6 * 2 ^ 5 +
      w.toNat / 2 ^ 8 % 2 ^ 4 * 2) := by
  rw [immB, toInt_signExtend_eq_signedValue (by decide) (by decide)]
  congr 1
  simp only [toNat_append_eq_add, toNat_field_top w (start := 31) (len := 1) rfl, toNat_field, BitVec.toNat_ofNat]
  omega

theorem toInt_immJ (w : Word) : (immJ w).toInt =
    signedValue 21 (w.toNat / 2 ^ 31 * 2 ^ 20 + w.toNat / 2 ^ 12 % 2 ^ 8 * 2 ^ 12 + w.toNat / 2 ^ 20 % 2 * 2 ^ 11 +
      w.toNat / 2 ^ 21 % 2 ^ 10 * 2) := by
  rw [immJ, toInt_signExtend_eq_signedValue (by decide) (by decide)]
  congr 1
  simp only [toNat_append_eq_add, toNat_field_top w (start := 31) (len := 1) rfl, toNat_field, BitVec.toNat_ofNat]
  omega

/-- Settles O49: the fields by `toNat_field`, the immediates by the lemma of each format. -/
theorem fieldsAndImmediatesAreAssembledFromTheWord : Obligations.FieldsAndImmediatesAreAssembledFromTheWord := by
  intro w
  exact ⟨toNat_field w 7 5, toNat_field w 15 5, toNat_field w 20 5, toNat_shamt w, toNat_immU w, toInt_immI w,
    toInt_immS w, toInt_immB w, toInt_immJ w⟩

end Sys2Proof
end

section
/-! SUPPORT. The state after reset (10_state.md R39), programs that fit (70_reset_and_hazards.md R269) and word images
(R275), and the settlement of O1, O7, O53 and O54. -/

namespace Sys2Proof.Machine

/-! ### Reset -/

theorem State.readReg_reset_eq_zero (i : Reg) : State.reset.readReg i = 0#32 := by
  by_cases hi : i = 0#5
  · rw [hi, State.readReg_zero]
  · exact State.readReg_reset hi

/-- Settles O1: the lists of the reset state are empty, its registers and pc are 0. -/
theorem resetLeavesZeroes : Obligations.ResetLeavesZeroes :=
  ⟨rfl, State.readReg_reset_eq_zero, State.slot_reset, fun _ => rfl, State.labelAddress_reset⟩

/-- Settles O7: empty lists are in canonical form. -/
theorem resetIsCanonical : Obligations.ResetIsCanonical :=
  ⟨memory_wf_reset, ⟨List.Pairwise.nil, nofun⟩, List.Pairwise.nil⟩

/-! ### Programs that fit -/

/-- R266: with a slot left for each of the instruction lines, a load succeeds. -/
theorem loadLines_ok_of_fits {p : Program} {k : Nat} (s : State) (hfits : k + (instructionsOf p).length ≤ imemSlots) :
    ∃ t, loadLines p (4 * k) s = .ok t := by
  induction p generalizing k s with
  | nil => exact ⟨s, rfl⟩
  | cons line p ih =>
    cases line with
    | instruction i =>
      rw [instructionsOf, List.length_cons] at hfits
      have hslot : ¬ imemSlots ≤ k := by omega
      rw [loadLines, Nat.mul_div_cancel_left k (by decide), if_neg hslot]
      exact ih (k := k + 1) _ (by omega)
    | label name => exact ih _ hfits

theorem loadProgram_ok_of_fits {p : Program} (hfits : (instructionsOf p).length ≤ imemSlots) :
    ∃ s, loadProgram p = .ok s :=
  loadLines_ok_of_fits (k := 0) State.reset (by rwa [Nat.zero_add])

/-- Settles O53: the two lemmas of the loader, for the running address 0. -/
theorem loaderRejectsExactlyTheTooLarge : Obligations.LoaderRejectsExactlyTheTooLarge := by
  refine fun p => ⟨loadProgram_ok_of_fits, fun hlarge => ?_⟩
  exact loadLines_error_of_tooLarge (k := 0) State.reset (Nat.zero_le _) (by rwa [Nat.zero_add])

/-! ### Word images -/

theorem placeWords_frame (ws : List Word) (k : Nat) (s : State) : (placeWords ws k s).pc = s.pc ∧
    (placeWords ws k s).regs = s.regs ∧ (placeWords ws k s).dmem = s.dmem ∧ (placeWords ws k s).labels = s.labels := by
  induction ws generalizing k s with
  | nil => exact ⟨rfl, rfl, rfl, rfl⟩
  | cons w ws ih => exact ih (k + 1) (s.putSlot k (.word w))

/-- A word written to the first slot beyond a list of records adds the record it decodes to. -/
theorem State.containsRecords_putSlot_word {s : State} {is : List Instr} (h : s.containsRecords is) {w : Word}
    {i : Instr} (hdecode : decode w = .ok i) : (s.putSlot is.length (.word w)).containsRecords (is ++ [i]) := by
  have hcontent : (SlotHold.word w).content = (SlotHold.record i).content := decodeSlot_of_decode hdecode
  intro k
  rw [State.slot_putSlot, hcontent, ← State.slot_putSlot]
  exact State.containsRecords_putSlot h i k

/-- R275: the words of an image that all decode leave their records in the slots. -/
theorem containsRecords_placeWords {ws : List Word} {is js : List Instr} {s : State} (hs : s.containsRecords is)
    (h : ws.map decode = js.map Except.ok) : (placeWords ws is.length s).containsRecords (is ++ js) := by
  induction ws generalizing is js s with
  | nil =>
    obtain rfl : js = [] := List.map_eq_nil_iff.1 h.symm
    rwa [List.append_nil]
  | cons w ws ih =>
    cases js with
    | nil => nomatch h
    | cons j js =>
      obtain ⟨hw, hrest⟩ := List.cons.inj h
      have hnext := ih (State.containsRecords_putSlot_word hs hw) hrest
      rwa [List.append_assoc, List.length_append] at hnext

theorem instructionsOf_map_instruction (is : List Instr) : instructionsOf (is.map .instruction) = is := by
  induction is with
  | nil => rfl
  | cons i is ih => rw [List.map_cons, instructionsOf, ih]

/-- R266: a program of instruction lines alone binds no label. -/
theorem labels_loadLines_map_instruction {is : List Instr} {addr : Nat} {s t : State}
    (h : loadLines (is.map .instruction) addr s = .ok t) : t.labels = s.labels := by
  refine loadLines_keeps (P := fun u => u.labels = s.labels) (fun _ _ _ hu => hu) (fun _ name _ hname _ => ?_) h rfl
  obtain ⟨i, -, hi⟩ := List.mem_map.1 hname
  nomatch hi

/-- Settles O54: both loads write the slots only, and both leave the same records there. -/
theorem wordImageLoadsAsItsRecords : Obligations.WordImageLoadsAsItsRecords := by
  intro ws is hdecode hlength
  have hlen : is.length = ws.length := by
    rw [← List.length_map (f := Except.ok (ε := DecodeReject)), ← hdecode, List.length_map]
  obtain ⟨t, ht⟩ := loadProgram_ok_of_fits (p := is.map .instruction)
    (by rwa [instructionsOf_map_instruction, hlen])
  refine ⟨placeWords ws 0 State.reset, t, if_pos hlength, ht, ?_⟩
  obtain ⟨hpc, hregs, hdmem, hlabels⟩ := placeWords_frame ws 0 State.reset
  obtain ⟨hpc', hregs', hdmem'⟩ := loadLines_frame ht
  have hwords := containsRecords_placeWords State.containsRecords_reset hdecode
  have hrecords := containsRecords_loadLines State.containsRecords_reset ht
  rw [instructionsOf_map_instruction] at hrecords
  exact ⟨hpc.trans hpc'.symm, hregs.trans hregs'.symm, hdmem.trans hdmem'.symm,
    hlabels.trans (labels_loadLines_map_instruction ht).symm, fun k => (hwords k).trans (hrecords k).symm⟩

end Sys2Proof.Machine
end

section
/-! SUPPORT. Runs and the driver's session (70_reset_and_hazards.md R265, R271 to R274), and the settlement of O55 and
O56. -/

namespace Sys2Proof.Machine

/-- A step completes or errs; it refuses nothing. -/
theorem step_next_or_fault (s : State) : (∃ t, step s = .next t) ∨ ∃ f, step s = .fault f := by
  rcases step_cases s with ⟨i, -, hstep⟩ | ⟨-, hstep⟩
  · rw [hstep]
    exact (exec_next_or_unknownLabel i s).imp_right fun ⟨name, h⟩ => ⟨.unknownLabel name, h⟩
  · exact .inr ⟨_, hstep⟩

theorem run_succ_of_step_next {s t : State} (h : step s = .next t) (n : Nat) : run (n + 1) s = run n t := by
  simp only [run, h]

/-- A sequence of states with one more before it. -/
def precededBy (s : State) (states : Nat → State) : Nat → State
  | 0 => s
  | i + 1 => states i

/-- Settles O55: by induction on the budget; a first step that completes precedes the chain of the run that follows it. -/
theorem runsEndAtTheFirstErrorOrTheBudget : Obligations.RunsEndAtTheFirstErrorOrTheBudget := by
  intro n
  induction n with
  | zero => exact fun s => ⟨0, fun _ => s, Nat.le_refl 0, rfl, nofun, .inl ⟨rfl, rfl⟩⟩
  | succ n ih =>
    intro s
    rcases step_next_or_fault s with ⟨t, hstep⟩ | ⟨f, hstep⟩
    · obtain ⟨m, states, hm, h0, hchain, hend⟩ := ih t
      refine ⟨m + 1, precededBy s states, Nat.succ_le_succ hm, rfl, fun i hi => ?chain, ?ending⟩
      case chain =>
        cases i with
        | zero => rw [precededBy, precededBy, h0, hstep]
        | succ i => exact hchain i (Nat.lt_of_succ_lt_succ hi)
      case ending =>
        rw [run_succ_of_step_next hstep]
        rcases hend with ⟨rfl, hrun⟩ | ⟨f, hlt, herr, hrun⟩
        · exact .inl ⟨rfl, hrun⟩
        · exact .inr ⟨f, Nat.succ_lt_succ hlt, herr, hrun⟩
    · exact ⟨0, fun _ => s, Nat.zero_le _, rfl, nofun,
        .inr ⟨f, n.succ_pos, hstep, run_succ_of_step_fault hstep n⟩⟩

/-! ### The session -/

section Session
variable {q : Session}

theorem Session.request_load_of_fresh (h : q.phase = .fresh) (p : Program) :
    q.request (.load p) = Session.finishLoad (loadProgram p) := if_pos h

theorem Session.request_loadImage_of_fresh (h : q.phase = .fresh) (ws : List Word) :
    q.request (.loadImage ws) = Session.finishLoad (loadImage ws) := if_pos h

theorem Session.request_step_of_next {t : State} (h : q.phase = .loaded) (hstep : step q.state = .next t) :
    q.request .step = (Session.mk .loaded t, .ok) := by
  rw [Session.request, if_pos h, hstep, Session.finishStep, h]

theorem Session.request_step_of_fault {f : Fault} (h : q.phase = .loaded) (hstep : step q.state = .fault f) :
    q.request .step = (q, .error f) := by
  rw [Session.request, if_pos h, hstep, Session.finishStep]

/-- No step of a loaded machine answers a refusal. -/
theorem Session.request_step_ne_refused (h : q.phase = .loaded) (r : Refusal) :
    (q.request .step).2 ≠ .refused r := by
  rcases step_next_or_fault q.state with ⟨t, hstep⟩ | ⟨f, hstep⟩
  · rw [Session.request_step_of_next h hstep]
    nofun
  · rw [Session.request_step_of_fault h hstep]
    nofun

end Session

/-- Settles O56: a request in each phase, by the lemmas of the session; a step that errs keeps the session, so the next
request finds it in the same place. -/
theorem driverLoadsAfterResetAndStepsAfterLoading : Obligations.DriverLoadsAfterResetAndStepsAfterLoading := by
  intro q p ws s e f
  refine ⟨rfl, fun hfresh => ?fresh, fun hfresh => ⟨if_neg hfresh, if_neg hfresh⟩, fun hloaded => if_neg hloaded,
    fun hloaded => Session.request_step_of_next hloaded, fun hloaded hstep => ?err,
    Session.request_step_ne_refused⟩
  case fresh =>
    rw [Session.request_load_of_fresh hfresh, Session.request_loadImage_of_fresh hfresh]
    refine ⟨fun h => ?_, fun h => ?_, fun h => ?_, fun h => ?_⟩ <;> rw [h, Session.finishLoad]
  case err =>
    have hkept := Session.request_step_of_fault hloaded hstep
    exact ⟨hkept, by rw [hkept, hkept]⟩

end Sys2Proof.Machine
end

section
/-! SUPPORT. Register names (10_state.md R23): a lookup in a table without repeated keys, and the settlement of O57. -/

namespace Sys2Proof.Machine

theorem Table.mem_of_lookup_eq_some {κ α : Type} [DecidableEq κ] {k : κ} {v : α} {l : List (κ × α)}
    (h : Table.lookup k l = some v) : (k, v) ∈ l := by
  induction l with
  | nil => nomatch h
  | cons e l ih =>
    rw [Table.lookup_cons] at h
    split at h
    case isTrue hk => rw [← hk, ← Option.some.inj h]; exact List.mem_cons_self
    case isFalse => exact List.mem_cons_of_mem _ (ih h)

/-- R23: no two rows of the name table share a name, so a name listed with an index is looked up to it. -/
theorem lookup_registerNames_of_mem : ∀ e ∈ registerNames, Table.lookup e.1 registerNames = some e.2 := by decide

theorem constructRegister_eq_ok_iff (text : String) (r : Reg) :
    constructRegister text = .ok r ↔ (text, r) ∈ registerNames := by
  constructor
  · intro h
    unfold constructRegister at h
    split at h
    case h_1 r' hlookup => exact Table.mem_of_lookup_eq_some (Except.ok.inj h ▸ hlookup)
    case h_2 => split at h <;> nomatch h
  · intro h
    rw [constructRegister, lookup_registerNames_of_mem _ h]

theorem mem_numericRegisterNames_iff (text : String) :
    text ∈ numericRegisterNames ↔ ∃ n, n < 32 ∧ text = "x" ++ toString n := by
  simp only [numericRegisterNames, List.mem_map, List.mem_range, eq_comm (a := text)]

/-- U17: the numeric names are not in the name table. -/
theorem lookup_registerNames_of_numeric :
    ∀ text ∈ numericRegisterNames, Table.lookup text registerNames = none := by decide

theorem constructRegister_of_numeric {text : String} (h : text ∈ numericRegisterNames) :
    constructRegister text = .error (.refused (.numericRegisterName text)) := by
  rw [constructRegister, lookup_registerNames_of_numeric text h]
  exact if_pos h

theorem constructRegister_of_other {text : String} (h : ∀ r, constructRegister text ≠ .ok r)
    (hnumeric : text ∉ numericRegisterNames) :
    constructRegister text = .error (.error (.invalidRegisterName text)) := by
  unfold constructRegister at h ⊢
  split
  case h_1 r hlookup => exact absurd (by rw [hlookup]) (h r)
  case h_2 => exact if_neg hnumeric

/-- A name of the table with its index as a number. -/
theorem mem_registerNames_iff (text : String) (r : Reg) :
    (text, r) ∈ registerNames ↔ (text, r.toNat) ∈ registerNames.map fun e => (e.1, e.2.toNat) := by
  rw [List.mem_map]
  constructor
  · exact fun h => ⟨_, h, rfl⟩
  · rintro ⟨⟨text', r'⟩, hmem, heq⟩
    obtain ⟨rfl, hr⟩ := Prod.mk.inj heq
    exact BitVec.eq_of_toNat_eq hr ▸ hmem

/-- Settles O57: the 33 names of the statement are those of the name table. -/
theorem registerNamesAreTheTable : Obligations.RegisterNamesAreTheTable := by
  intro text r n
  refine ⟨?names, fun hn => ?numeric, fun h hnumeric => ?other⟩
  case names => exact (constructRegister_eq_ok_iff text r).trans (mem_registerNames_iff text r)
  case numeric => exact constructRegister_of_numeric ((mem_numericRegisterNames_iff _).2 ⟨n, hn, rfl⟩)
  case other =>
    refine constructRegister_of_other h fun hmem => ?_
    obtain ⟨i, hi, heq⟩ := (mem_numericRegisterNames_iff text).1 hmem
    exact hnumeric i hi heq

end Sys2Proof.Machine
end
